-- ==== Sys2Proof/Word.lean ====
section
/-! DEFINITION. The words the block computes with (00_scope.md R5: every byte, address, row, column and glyph id is an
8-bit unsigned number) and the closed enumerations an operation takes as operands (30_encoding.md R70). -/

namespace Sys2Proof

/-- A command or data byte, an address, a row, a column or a glyph id: 8 bits, arithmetic modulo 2^8 (R5, R6). -/
abbrev Byte := BitVec 8

/-- A 4-bit half of a byte (R11). -/
abbrev Nibble := BitVec 4

/-- The direction of set-entry-mode; left-to-right is Increment and right-to-left is Decrement (R70, C1). -/
inductive EntryDir where
  | increment
  | decrement
deriving DecidableEq, Repr

/-- The direction of shift-display and shift-cursor (R70). -/
inductive ShiftDir where
  | left
  | right
deriving DecidableEq, Repr

/-- The line count of set-function (R70). -/
inductive LineCount where
  | one
  | two
deriving DecidableEq, Repr

/-- The character grid of set-function (R70). -/
inductive CharGrid where
  | grid5x8
  | grid5x11
deriving DecidableEq, Repr

/-- The 9-bit bus word `RS:D7..D0` (R6, R60): the register-select level (false = 0, commands) and the byte. -/
structure BusWord where
  rs : Bool
  byte : Byte
deriving DecidableEq, Repr

end Sys2Proof
end

