-- ==== Sys2Proof/Config.lean ====
section
/-! DEFINITION. What is fixed for one block: its bus width W (R2, R5, R23), its pins and their levels (R8, R20, R26), the
events it can emit (R7), and the construction parameters (R5, R34, R192). -/

namespace Sys2Proof

/-- The two variants of the block (R2): W = 4 and W = 8. -/
inductive Width where
  | four
  | eight
deriving DecidableEq, Repr

/-- The number of data lines of the pin group (R8). -/
def Width.lines : Width → Nat
  | .four => 4
  | .eight => 8

/-- The bus-width flag `EIGHT_BITS` of the transport interface (R106). -/
def Width.eightBits : Width → Bool
  | .four => false
  | .eight => true

/-- The block's output pins (R8). Data line `d k` exists for k below W only. -/
inductive Pin where
  | rs
  | rw
  | e
  | d (k : Fin 8)
deriving DecidableEq, Repr

/-- A pin level as the block knows it (R26): 0, 1, or U, "not yet driven by this block". -/
inductive Level where
  | low
  | high
  | undriven
deriving DecidableEq, Repr

/-- One element of the block's whole output (R7): a set-high or set-low call on a pin, or a sleep request in µs. -/
inductive Event where
  | set (p : Pin) (v : Bool)
  | sleep (us : Nat)
deriving DecidableEq, Repr

/-- The map `LV` of R20 written out: one level for each pin, the data lines as a list with D0 first. -/
structure Levels where
  rs : Level
  rw : Level
  e : Level
  data : List Level
deriving DecidableEq, Repr

/-- The R/W pin is a real pin or a no-op (R5); "the spec's events are the same". -/
inductive RwPin where
  | real
  | noOp
deriving DecidableEq, Repr

/-- What the host supplies at construction and the open parameters of R5. `powerOnReady` is the host's duty of R192 and R204:
`construct` answers only a host that met it, and no event depends on it (D17). `rwPin` changes no event (R164). -/
structure Params where
  width : Width
  pinInit : Levels
  rwPin : RwPin
  powerOnReady : Bool
deriving DecidableEq, Repr

/-- Every pin at U: the default of `pin_init` (R5, D13). -/
def Levels.allUndriven (w : Width) : Levels :=
  ⟨.undriven, .undriven, .undriven, List.replicate w.lines .undriven⟩

/-- The parameters of the one block that `State.reset` is. DESIGN CHOICE: W = 8, a real R/W pin, `power_on_ready` met
(log 1); `pin_init` is the spec's default. Unsafe: a claim about `State.reset` alone says nothing of W = 4. -/
def Params.default : Params :=
  ⟨.eight, Levels.allUndriven .eight, .real, true⟩

end Sys2Proof
end

