-- ==== Sys2Proof/Syntax.lean ====
section
/-! DEFINITION. The instructions: one constructor for each row of spec/opcode_table.json. An instruction is one invocation
of a driver operation by the host (R10, R76), and INIT is the constructor's initialization sequence. -/

namespace Sys2Proof

inductive Instr where
  /-- CLEAR, clear-display (R123). -/
  | clear
  /-- HOME, return-home (R124). -/
  | home
  /-- ENTRY, set-entry-mode (R125). -/
  | entry (dir : EntryDir) (shift : Bool)
  /-- DISPLAY, control-display: display-on, cursor-on, blink-on (R126). -/
  | display (d c b : Bool)
  /-- SHIFT_CURSOR (R128). -/
  | shiftCursor (dir : ShiftDir)
  /-- SHIFT_DISPLAY (R127). -/
  | shiftDisplay (dir : ShiftDir)
  /-- FUNCTION, set-function; the bus width is no operand (R129). -/
  | function (lines : LineCount) (grid : CharGrid)
  /-- SET_CGRAM, set-CGRAM-address (R130). -/
  | setCgram (a : Byte)
  /-- SET_DDRAM, set-DDRAM-address (R131). -/
  | setDdram (a : Byte)
  /-- WRITE, write-byte (R132). -/
  | write (b : Byte)
  /-- WRITE_SEQ, write-sequence of any length, 0 included (R133, R5). -/
  | writeSeq (bs : List Byte)
  /-- GLYPH, define-custom-glyph (R134). -/
  | glyph (id : Byte) (rows : List Byte)
  /-- CURSOR, set-cursor (R135). -/
  | cursor (row col : Byte)
  /-- WRITE_AT, write-at (R136). -/
  | writeAt (row col : Byte) (bs : List Byte)
  /-- INIT, the initialization inside construction (R160). -/
  | init
deriving DecidableEq, Repr

end Sys2Proof
end

