-- ==== Sys2Proof/Machine/Operands.lean ====
section
/-! DEFINITION. Operand forms: parameter values as field bits (R70), the halves of a byte (R42), the address arithmetic of
GLYPH and CURSOR (R134, R135). All of it modulo 2^8 and unsigned (R6, D9). -/

namespace Sys2Proof

/-- A boolean parameter as a field bit: true is 1 (R70). -/
def boolBit (b : Bool) : Byte := if b then 1 else 0

/-- Field I: Increment is 1 (R64, R70). -/
def EntryDir.bit : EntryDir → Byte
  | .increment => 1
  | .decrement => 0

/-- Field RL: Right is 1 (R66, R70). UNVERIFIED polarity (log 8). -/
def ShiftDir.bit : ShiftDir → Byte
  | .right => 1
  | .left => 0

/-- Field N: Two is 1 (R67, R70). UNVERIFIED position and polarity (log 8). -/
def LineCount.bit : LineCount → Byte
  | .two => 1
  | .one => 0

/-- Field F: Grid5x11 is 1 (R67, R70). UNVERIFIED position and polarity (log 8). -/
def CharGrid.bit : CharGrid → Byte
  | .grid5x11 => 1
  | .grid5x8 => 0

/-- Field DL: W = 8 is 1 (R67, R70). -/
def Width.bit : Width → Byte
  | .eight => 1
  | .four => 0

/-- b[7:4] (R42). -/
def highNibble (b : Byte) : Nibble := b.extractLsb' 4 4

/-- b[3:0] (R42). -/
def lowNibble (b : Byte) : Nibble := b.extractLsb' 0 4

/-- The byte whose high half came first on the bus (R42). -/
def joinNibbles (hi lo : Nibble) : Byte := hi ++ lo

/-- The CGRAM address GLYPH sets: `(id * 8) mod 2^8` (R134, D25). -/
def glyphAddress (id : Byte) : Byte := id * 8

/-- The DDRAM address of a row and column: `(col + row * 0x40) mod 2^8` (R51, R135, D9). -/
def cursorAddress (row col : Byte) : Byte := col + row * 0x40

end Sys2Proof
end

