-- ==== Sys2Proof/WellFormed.lean ====
section
/-! DEFINITION. Checks on terms. No operand value is illegal (R74), so none of these gates an operation's effect: they
say which instructions are what one bus word carries (R60 to R69, R77), which the host can invoke (R192), and which
events and levels belong to a pin group of width W (R8). -/

namespace Sys2Proof

/-- The rows of the table with a word of their own; "Five operations have no encoding of their own" (R77). -/
def Instr.hasWord : Instr → Bool
  | .clear | .home | .entry .. | .display .. | .shiftCursor .. | .shiftDisplay .. | .function .. => true
  | .setCgram .. | .setDdram .. | .write .. => true
  | .writeSeq .. | .glyph .. | .cursor .. | .writeAt .. | .init => false

/-- The operands fit the fields of the word: a CGRAM address has 6 bits there (R68) and a DDRAM address 7 (R69). -/
def Instr.operandsFit : Instr → Bool
  | .setCgram a => decide (a.toNat < 0x40)
  | .setDdram a => decide (a.toNat < 0x80)
  | _ => true

/-- The instruction is exactly what one bus word carries. -/
def Instr.wellFormed (i : Instr) : Bool := i.hasWord && i.operandsFit

/-- The host can invoke every operation but INIT: it "has no move ... to re-initialize" (R192). -/
def Instr.hostCallable : Instr → Bool
  | .init => false
  | _ => true

/-- The pin exists on a pin group of width W (R8, R20). -/
def Pin.exists (w : Width) : Pin → Bool
  | .d k => decide (k.val < w.lines)
  | _ => true

/-- The event drives a pin that exists, or is a sleep. -/
def Event.wellFormed (w : Width) : Event → Bool
  | .set p _ => p.exists w
  | .sleep _ => true

/-- There is one level for each of the W data lines (R20). -/
def Levels.fits (w : Width) (lv : Levels) : Bool := decide (lv.data.length = w.lines)

/-- `pin_init` gives a level for each pin of the supplied group (R5, R33), and the host has met its duty before construction
(R192, R204). -/
def Params.wellFormed (p : Params) : Bool := p.pinInit.fits p.width && p.powerOnReady

end Sys2Proof
end

