-- ==== Sys2Proof/Decode.lean ====
section
/-! DEFINITION. The decoder of bus words and of a latch view, and after it the encoder. The block itself never decodes
(R72): the decoder reads a recorded trace back into operations. The encoder is the block's command encoder (R80 to R90)
with the DATA format (R60) and the expansions of the composites (R77). -/

namespace Sys2Proof

/-- Why a word or a latch view is no operation's, by name (R73, R75). -/
inductive DecodeReject where
  /-- 0x00: no opcode bit. -/
  | noOpcodeBit
  /-- 0x03: return-home with bit 0 set. -/
  | homeSpareBit
  /-- Cursor/display-shift with bits 1:0 not 0. -/
  | shiftSpareBits
  /-- Function-set with bits 1:0 not 0. -/
  | functionSpareBits
  /-- Function-set with a DL bit that is not the block's W. -/
  | functionBusWidth
  /-- A 4-line latch view that ends in the middle of a byte. -/
  | unpairedNibble
  /-- A 4-line byte whose halves have different register-select levels. -/
  | registerSelectSplit
  /-- A transfer that latches a line the block has not driven. -/
  | undrivenLine
deriving DecidableEq, Repr

/-- A CMD byte by its highest set bit, the parameter fields below it by the layouts of R62 to R69 (R72, G11). -/
def decodeCommand (w : Width) (b : Byte) : Except DecodeReject Instr :=
  if b.getLsbD 7 then .ok (.setDdram (b &&& 0x7F))
  else if b.getLsbD 6 then .ok (.setCgram (b &&& 0x3F))
  else if b.getLsbD 5 then
    if b &&& 0x03 ≠ 0 then .error .functionSpareBits
    else if b.getLsbD 4 ≠ w.eightBits then .error .functionBusWidth
    else .ok (.function (if b.getLsbD 3 then .two else .one) (if b.getLsbD 2 then .grid5x11 else .grid5x8))
  else if b.getLsbD 4 then
    if b &&& 0x03 ≠ 0 then .error .shiftSpareBits
    else if b.getLsbD 3 then .ok (.shiftDisplay (if b.getLsbD 2 then .right else .left))
    else .ok (.shiftCursor (if b.getLsbD 2 then .right else .left))
  else if b.getLsbD 3 then .ok (.display (b.getLsbD 2) (b.getLsbD 1) (b.getLsbD 0))
  else if b.getLsbD 2 then .ok (.entry (if b.getLsbD 1 then .increment else .decrement) (b.getLsbD 0))
  else if b.getLsbD 1 then (if b.getLsbD 0 then .error .homeSpareBit else .ok .home)
  else if b.getLsbD 0 then .ok .clear
  else .error .noOpcodeBit

/-- One bus word: RS = 1 is a data byte, RS = 0 a command byte (R60). Total on every word. -/
def decodeWord (w : Width) (x : BusWord) : Except DecodeReject Instr :=
  if x.rs then .ok (.write x.byte) else decodeCommand w x.byte

/-- A list of bus words, in order. -/
def decodeWords (w : Width) : List BusWord → Except DecodeReject (List Instr)
  | [] => .ok []
  | x :: xs =>
    match decodeWord w x with
    | .error r => .error r
    | .ok i =>
      match decodeWords w xs with
      | .error r => .error r
      | .ok is => .ok (i :: is)

/-- One entry of a latch view as a number, written `RS:value` in 95_test_vectors.md: the register-select level and the
value on the data lines, D0 least significant (R55). -/
structure LatchWord where
  rs : Bool
  value : Nat
deriving DecidableEq, Repr

/-- On the 8-line bus one transfer carries a byte (R46, R75). -/
def joinEight : List LatchWord → Except DecodeReject (List BusWord)
  | [] => .ok []
  | x :: xs =>
    match joinEight xs with
    | .error r => .error r
    | .ok ws => .ok (⟨x.rs, BitVec.ofNat 8 x.value⟩ :: ws)

/-- On the 4-line bus a byte is two transfers, high nibble first (R42, R75). -/
def joinFour : List LatchWord → Except DecodeReject (List BusWord)
  | [] => .ok []
  | [_] => .error .unpairedNibble
  | hi :: lo :: xs =>
    if hi.rs ≠ lo.rs then .error .registerSelectSplit
    else
      match joinFour xs with
      | .error r => .error r
      | .ok ws => .ok (⟨hi.rs, joinNibbles (BitVec.ofNat 4 hi.value) (BitVec.ofNat 4 lo.value)⟩ :: ws)

/-- The bus words a latch view carries on the block's W. -/
def joinLatched : Width → List LatchWord → Except DecodeReject (List BusWord)
  | .eight => joinEight
  | .four => joinFour

/-- A latch view back into operations (R72). -/
def decodeLatched (w : Width) (xs : List LatchWord) : Except DecodeReject (List Instr) :=
  match joinLatched w xs with
  | .error r => .error r
  | .ok ws => decodeWords w ws

/-- `nbits` bits of a row of spec/opcode_table.json, bit 8 being RS, as a bus word; a number of more than 9 bits is none. -/
def busWordOfNat (nbits w : Nat) : Option BusWord :=
  let v := w % 2 ^ nbits
  if v < 512 then some ⟨v.testBit 8, BitVec.ofNat 8 v⟩ else none

/-- The instruction the decoder reads from a word of the table. The table's FUNCTION row leaves the bit DL free, and DL
"is not a caller operand": the word is read on the W that its own DL bit names (DEDUCED, log 4). -/
def decodeTableWord (nbits w : Nat) : Option Instr :=
  match busWordOfNat nbits w with
  | none => none
  | some x =>
    match decodeWord .four x with
    | .ok i => some i
    | .error _ =>
      match decodeWord .eight x with
      | .ok i => some i
      | .error _ => none

/-! ## The encoder -/

/-- `enc_clear` (R81). -/
def encClear : Byte := 0x01

/-- `enc_home` (R82). -/
def encHome : Byte := 0x02

/-- `enc_entry` (R83). The split of I and S is UNVERIFIED (log 8). -/
def encEntry (dir : EntryDir) (shift : Bool) : Byte := 0x04 ||| (dir.bit <<< 1) ||| boolBit shift

/-- `enc_display` (R84). The positions of D, C and B are UNVERIFIED (log 8). -/
def encDisplay (d c b : Bool) : Byte := 0x08 ||| (boolBit d <<< 2) ||| (boolBit c <<< 1) ||| boolBit b

/-- `enc_shift_display` (R85), SC = 1. UNVERIFIED positions (log 8). -/
def encShiftDisplay (dir : ShiftDir) : Byte := 0x10 ||| 0x08 ||| (dir.bit <<< 2)

/-- `enc_shift_cursor` (R86), SC = 0. UNVERIFIED positions (log 8). -/
def encShiftCursor (dir : ShiftDir) : Byte := 0x10 ||| (dir.bit <<< 2)

/-- `enc_function` (R87): DL comes from the pin group's W, not from the caller. -/
def encFunction (w : Width) (lines : LineCount) (grid : CharGrid) : Byte :=
  0x20 ||| (w.bit <<< 4) ||| (lines.bit <<< 3) ||| (grid.bit <<< 2)

/-- `enc_cgram` (R88). -/
def encCgram (a : Byte) : Byte := 0x40 ||| (a &&& 0x3F)

/-- `enc_ddram` (R89). -/
def encDdram (a : Byte) : Byte := 0x80 ||| a

/-- The one bus word of a row that has one (R60); none for a composite (R77). -/
def encodeWord (w : Width) : Instr → Option BusWord
  | .clear => some ⟨false, encClear⟩
  | .home => some ⟨false, encHome⟩
  | .entry dir shift => some ⟨false, encEntry dir shift⟩
  | .display d c b => some ⟨false, encDisplay d c b⟩
  | .shiftCursor dir => some ⟨false, encShiftCursor dir⟩
  | .shiftDisplay dir => some ⟨false, encShiftDisplay dir⟩
  | .function lines grid => some ⟨false, encFunction w lines grid⟩
  | .setCgram a => some ⟨false, encCgram a⟩
  | .setDdram a => some ⟨false, encDdram a⟩
  | .write b => some ⟨true, b⟩
  | .writeSeq _ => none
  | .glyph _ _ => none
  | .cursor _ _ => none
  | .writeAt _ _ _ => none
  | .init => none

/-- A composite as the rows with a word that it expands into (R77, R133 to R136); such a row is itself. INIT expands into
NIB transfers and pin events (R166), not into CMD or DATA words. -/
def Instr.expand : Instr → List Instr
  | .writeSeq bs => bs.map .write
  | .glyph id rows => .setCgram (glyphAddress id) :: rows.map .write
  | .cursor row col => [.setDdram (cursorAddress row col)]
  | .writeAt row col bs => .setDdram (cursorAddress row col) :: bs.map .write
  | .init => []
  | .clear => [.clear]
  | .home => [.home]
  | .entry dir shift => [.entry dir shift]
  | .display d c b => [.display d c b]
  | .shiftCursor dir => [.shiftCursor dir]
  | .shiftDisplay dir => [.shiftDisplay dir]
  | .function lines grid => [.function lines grid]
  | .setCgram a => [.setCgram a]
  | .setDdram a => [.setDdram a]
  | .write b => [.write b]

/-- The CMD and DATA words an instruction sends on width W, in order. -/
def encode (w : Width) (i : Instr) : List BusWord := i.expand.filterMap (encodeWord w)

/-- The instruction with the same word whose operands fit the word's fields (R88, R89): the mask and the absorption made
plain. -/
def Instr.canonical : Instr → Instr
  | .setCgram a => .setCgram (a &&& 0x3F)
  | .setDdram a => .setDdram (a &&& 0x7F)
  | i => i

/-- One row of spec/opcode_table.json: its `match` and `mask` over the 9-bit bus word. -/
structure OpcodeRow where
  mnemonic : String
  matchBits : BitVec 9
  mask : BitVec 9
deriving DecidableEq, Repr

/-- The ten rows that have a word. -/
def opcodeRows : List OpcodeRow :=
  [⟨"CLEAR", 0x001, 0x1FF⟩, ⟨"HOME", 0x002, 0x1FF⟩, ⟨"ENTRY", 0x004, 0x1FC⟩, ⟨"DISPLAY", 0x008, 0x1F8⟩,
   ⟨"SHIFT_CURSOR", 0x010, 0x1FB⟩] ++
  [⟨"SHIFT_DISPLAY", 0x018, 0x1FB⟩, ⟨"FUNCTION", 0x020, 0x1E3⟩, ⟨"SET_CGRAM", 0x040, 0x1C0⟩,
   ⟨"SET_DDRAM", 0x080, 0x180⟩, ⟨"WRITE", 0x100, 0x100⟩]

/-- The bus word as the table's 9-bit number, bit 8 = RS (R6). -/
def BusWord.bits (x : BusWord) : BitVec 9 := BitVec.ofBool x.rs ++ x.byte

/-- The word belongs to the row. -/
def OpcodeRow.covers (r : OpcodeRow) (x : BusWord) : Bool := x.bits &&& r.mask == r.matchBits

/-- The table's name of the row an instruction stands for. -/
def Instr.mnemonic : Instr → String
  | .clear => "CLEAR"
  | .home => "HOME"
  | .entry .. => "ENTRY"
  | .display .. => "DISPLAY"
  | .shiftCursor .. => "SHIFT_CURSOR"
  | .shiftDisplay .. => "SHIFT_DISPLAY"
  | .function .. => "FUNCTION"
  | .setCgram .. => "SET_CGRAM"
  | .setDdram .. => "SET_DDRAM"
  | .write .. => "WRITE"
  | .writeSeq .. => "WRITE_SEQ"
  | .glyph .. => "GLYPH"
  | .cursor .. => "CURSOR"
  | .writeAt .. => "WRITE_AT"
  | .init => "INIT"

end Sys2Proof
end

