-- ==== Sys2Proof/Machine/State.lean ====
section
/-! DEFINITION. The state tuple of R20 as plain data, the position inside a running operation (R22), the host's pending
calls, the outcomes a step can have besides a next state, and the state at the start of construction (R33, R200). -/

namespace Sys2Proof.Machine

/-- The block's only status (R24). -/
inductive Phase where
  | initializing
  | ready
deriving DecidableEq, Repr

/-- The position in the initialization state machine (R25, R160). -/
inductive InitStep where
  | s0
  | s1
  | s2
  | s3
  | s4
  | done
deriving DecidableEq, Repr

/-- The position inside the running operation: the operation and the index of the next event in its list (R22). -/
structure InFlight where
  op : Instr
  index : Nat
deriving DecidableEq, Repr

/-- The state. `width` to `trace` are the tuple of R20 and `inFlight` is the position of R22. `calls` is the model's own
field: the host's pending invocations, next one first, an input and not state of the block (R34, R187; log 2). -/
structure State where
  width : Width
  phase : Phase
  initStep : InitStep
  lv : Levels
  trace : List Event
  inFlight : Option InFlight
  calls : List Instr
deriving DecidableEq, Repr

/-- Nothing raises a fault: "No internal error taxonomy" (R180), and every capability is infallible (R184, D22). -/
inductive Fault
deriving DecidableEq, Repr

/-- Moves that the spec says the host does not have, and the end of a run. Each is safe: the model shows no run there. -/
inductive Refusal where
  /-- Raised by an arm of exec that has no meaning yet. Safe. -/
  | notModelled (mnemonic : String)
  /-- Raised by every operation but INIT while PHASE = INITIALIZING: "The model has no step for a host that tries"
  (R211, D14, U10 `refuse`). Safe: the spec says the case cannot arise. -/
  | notReady
  /-- Raised by every instruction while another one runs: the host has no move that starts it (R187, D15, U9 `refuse`).
  Safe. -/
  | operationInFlight
  /-- Raised by INIT once the block is READY: it "runs exactly once per block" (R167) and the host has no move to
  re-initialize (R192). Safe. -/
  | reinitialize
  /-- Raised by the construction for a host that has not met the controller's power-on wait: it "has no move in the model"
  (R192, R204; the name is log 6). Safe. -/
  | powerOnNotReady
  /-- Raised by the step when the block is READY and no call is pending: the run ends there (R205). Safe. -/
  | runEnded
deriving DecidableEq, Repr

/-- The start of construction (R33, R200): W and the pin levels from what the host supplies, everything else fixed. It is
what the move `construct` leads to. -/
def State.atConstruction (p : Params) : State where
  width := p.width
  phase := .initializing
  initStep := .s0
  lv := p.pinInit
  trace := []
  inFlight := none
  calls := []

/-- The one block the host of this pipeline resets: the start of construction with the parameters of `Params.default`
(DESIGN CHOICE W = 8, log 1; no pending call, log 2). -/
def State.reset : State := State.atConstruction Params.default

end Sys2Proof.Machine
end

