-- ==== Sys2Proof/Machine/Flags.lean ====
section
/-! DEFINITION. The block "has no flags, no condition codes and no predicates" (R28), so no flag computation stands here.
What takes their place is its only status, PHASE (R24), together with the position of R22: they decide whether the host
has a move. -/

namespace Sys2Proof.Machine

/-- Why an operation of R123 to R136 has no move here, if it has none: it runs only when PHASE = READY (R122) and no other
operation is running (R187). -/
def operationGate (s : State) : Option Refusal :=
  match s.inFlight with
  | some _ => some .operationInFlight
  | none =>
    match s.phase with
    | .initializing => some .notReady
    | .ready => none

/-- Why INIT has no move here, if it has none: it runs once, at construction (R167, R192). -/
def initGate (s : State) : Option Refusal :=
  match s.inFlight with
  | some _ => some .operationInFlight
  | none =>
    match s.phase with
    | .initializing => none
    | .ready => some .reinitialize

end Sys2Proof.Machine
end

