-- ==== Sys2Proof/Machine/Ops.lean ====
section
/-! DEFINITION. The named operations on the state: driving one pin, emitting an event (R9, R26, R27), emitting a list in
order (`run L`, R9), and running one operation's whole event list (R47, R122). The block raises no exception and has no
interrupt (R180 to R183), so there is no exception to take and none to return from. -/

namespace Sys2Proof

/-- The level a SET leaves (R26). -/
def Level.ofBool : Bool → Level
  | true => .high
  | false => .low

/-- The level of a pin; none for a data line the pin group does not have (R20). -/
def Levels.get (lv : Levels) : Pin → Option Level
  | .rs => some lv.rs
  | .rw => some lv.rw
  | .e => some lv.e
  | .d k => lv.data[k.val]?

/-- `LV(p) <- v`, "and changes no other part of LV" (R26). -/
def Levels.drive (lv : Levels) (p : Pin) (v : Bool) : Levels :=
  match p with
  | .rs => { lv with rs := Level.ofBool v }
  | .rw => { lv with rw := Level.ofBool v }
  | .e => { lv with e := Level.ofBool v }
  | .d k => { lv with data := lv.data.set k.val (Level.ofBool v) }

/-- What one event does to LV: a SLEEP leaves it unchanged (R26). -/
def Levels.apply (lv : Levels) : Event → Levels
  | .set p v => lv.drive p v
  | .sleep _ => lv

/-- What a list of events does to LV, in order. -/
def Levels.applyAll (lv : Levels) (evs : List Event) : Levels := evs.foldl Levels.apply lv

namespace Machine

/-- `emit`: the event is appended to the end of TRACE (R27) and a SET writes LV (R26). -/
def State.emit (s : State) (ev : Event) : State :=
  { s with lv := s.lv.apply ev, trace := s.trace ++ [ev] }

/-- `run L`: every event of the list in order (R9). -/
def State.emitAll (s : State) (evs : List Event) : State := evs.foldl State.emit s

/-- One operation of R123 to R136, given its event list: it emits the whole list in order and returns no value (R122), or
the host has no move. -/
def perform (evs : List Event) (s : State) : Host.Outcome State Fault Refusal :=
  match operationGate s with
  | some r => .refused r
  | none => .next (s.emitAll evs)

end Machine

end Sys2Proof
end

