-- ==== Sys2Proof/Machine/Transport.lean ====
section
/-! DEFINITION. The pin-group transport (R100 to R106) and the two primitive sequences of the driver (R120, R121), as event
lists. The transport drives E and the data lines only (R107); register-select belongs to the driver. -/

namespace Sys2Proof

/-- The requested high time of the enable pulse in µs, "exactly [1 µs, 100 µs]" (R100, D7). -/
def pulseHighUs : Nat := 1

/-- The requested recovery time after the pulse in µs (R100, D7). -/
def recoveryUs : Nat := 100

/-- The requested extra settle time of CLEAR and HOME in µs (R123, R124, D7). -/
def slowCommandUs : Nat := 2000

/-- `PULSE()` (R100). -/
def pulse : List Event := [.set .e true, .sleep pulseHighUs, .set .e false, .sleep recoveryUs]

/-- `DRIVE8(b)`: bit i on Di, ascending, one SET for each line (R101). UNVERIFIED order (log 7). -/
def driveEight (b : Byte) : List Event :=
  [.set (.d 0) (b.getLsbD 0), .set (.d 1) (b.getLsbD 1), .set (.d 2) (b.getLsbD 2), .set (.d 3) (b.getLsbD 3),
   .set (.d 4) (b.getLsbD 4), .set (.d 5) (b.getLsbD 5), .set (.d 6) (b.getLsbD 6), .set (.d 7) (b.getLsbD 7)]

/-- The four SETs of a nibble on the 4-line bus: bit i on Di, ascending (R43, R104). UNVERIFIED numbering (log 7). -/
def driveFour (n : Nibble) : List Event :=
  [.set (.d 0) (n.getLsbD 0), .set (.d 1) (n.getLsbD 1), .set (.d 2) (n.getLsbD 2), .set (.d 3) (n.getLsbD 3)]

/-- `T8_WRITE_BYTE(b)` (R102). -/
def t8WriteByte (b : Byte) : List Event := driveEight b ++ pulse

/-- `T8_WRITE_NIBBLE(n)`: D7..D4 carry n and D3..D0 are driven to 0 (R44, R103). UNVERIFIED placement (log 7). -/
def t8WriteNibble (n : Nibble) : List Event := driveEight (n.setWidth 8 <<< 4) ++ pulse

/-- `T4_WRITE_NIBBLE(n)` (R104). -/
def t4WriteNibble (n : Nibble) : List Event := driveFour n ++ pulse

/-- `T4_WRITE_BYTE(b)`: the high nibble, then the low nibble, each with its own pulse (R105). -/
def t4WriteByte (b : Byte) : List Event := t4WriteNibble (highNibble b) ++ t4WriteNibble (lowNibble b)

/-- `WRITE_BYTE` of the transport interface (R106). -/
def writeByte : Width → Byte → List Event
  | .eight => t8WriteByte
  | .four => t4WriteByte

/-- `WRITE_NIBBLE` of the transport interface, "for the initialization only" (R106). -/
def writeNibble : Width → Nibble → List Event
  | .eight => t8WriteNibble
  | .four => t4WriteNibble

/-- `CMD_SEND(c)`: RS low once, before the data lines (R120). UNVERIFIED count of RS events (log 7). -/
def cmdSend (w : Width) (c : Byte) : List Event := [.set .rs false] ++ writeByte w c

/-- `DATA_SEND(b)`: RS high once, before the data lines (R121). UNVERIFIED count of RS events (log 7). -/
def dataSend (w : Width) (b : Byte) : List Event := [.set .rs true] ++ writeByte w b

end Sys2Proof
end

