-- ==== Sys2Proof/Machine/Commands.lean ====
section
/-! DEFINITION. The nine commands (R123 to R131): each one's event list, and its meaning. No command raises an exception,
sets a flag or reads the controller. -/

namespace Sys2Proof.Machine

/-- CLEAR (R123): the extra sleep stands after the transfer's last SLEEP(100). UNVERIFIED place (log 7). -/
def clearEvents (w : Width) : List Event := cmdSend w encClear ++ [.sleep slowCommandUs]

/-- HOME (R124). -/
def homeEvents (w : Width) : List Event := cmdSend w encHome ++ [.sleep slowCommandUs]

/-- ENTRY (R125). -/
def entryEvents (w : Width) (dir : EntryDir) (shift : Bool) : List Event := cmdSend w (encEntry dir shift)

/-- DISPLAY (R126). -/
def displayEvents (w : Width) (d c b : Bool) : List Event := cmdSend w (encDisplay d c b)

/-- SHIFT_CURSOR (R128). -/
def shiftCursorEvents (w : Width) (dir : ShiftDir) : List Event := cmdSend w (encShiftCursor dir)

/-- SHIFT_DISPLAY (R127). -/
def shiftDisplayEvents (w : Width) (dir : ShiftDir) : List Event := cmdSend w (encShiftDisplay dir)

/-- FUNCTION (R129): DL is the block's W. -/
def functionEvents (w : Width) (lines : LineCount) (grid : CharGrid) : List Event :=
  cmdSend w (encFunction w lines grid)

/-- SET_CGRAM (R130): bits 7 and 6 of the address are dropped silently. -/
def setCgramEvents (w : Width) (a : Byte) : List Event := cmdSend w (encCgram a)

/-- SET_DDRAM (R131): bit 7 of the address is absorbed. -/
def setDdramEvents (w : Width) (a : Byte) : List Event := cmdSend w (encDdram a)

/-- CLEAR (R123): runs as R122 says. -/
def execClear (s : State) : Host.Outcome State Fault Refusal := perform (clearEvents s.width) s

/-- HOME (R124). -/
def execHome (s : State) : Host.Outcome State Fault Refusal := perform (homeEvents s.width) s

/-- ENTRY (R125), for every direction and shift. -/
def execEntry (dir : EntryDir) (shift : Bool) (s : State) : Host.Outcome State Fault Refusal :=
  perform (entryEvents s.width dir shift) s

/-- DISPLAY (R126), for every three flags. -/
def execDisplay (d c b : Bool) (s : State) : Host.Outcome State Fault Refusal :=
  perform (displayEvents s.width d c b) s

/-- SHIFT_CURSOR (R128). -/
def execShiftCursor (dir : ShiftDir) (s : State) : Host.Outcome State Fault Refusal :=
  perform (shiftCursorEvents s.width dir) s

/-- SHIFT_DISPLAY (R127). -/
def execShiftDisplay (dir : ShiftDir) (s : State) : Host.Outcome State Fault Refusal :=
  perform (shiftDisplayEvents s.width dir) s

/-- FUNCTION (R129), for every line count and grid on the block's W. -/
def execFunction (lines : LineCount) (grid : CharGrid) (s : State) : Host.Outcome State Fault Refusal :=
  perform (functionEvents s.width lines grid) s

/-- SET_CGRAM (R130), for every 8-bit address. -/
def execSetCgram (a : Byte) (s : State) : Host.Outcome State Fault Refusal :=
  perform (setCgramEvents s.width a) s

/-- SET_DDRAM (R131), for every 8-bit address. -/
def execSetDdram (a : Byte) (s : State) : Host.Outcome State Fault Refusal :=
  perform (setDdramEvents s.width a) s

end Sys2Proof.Machine
end

