-- ==== Sys2Proof/Machine/Data.lean ====
section
/-! DEFINITION. The data operations and the composites built on them (R132 to R136). No argument is checked: a row count, an
address, a row or a column out of a display's range is sent as computed (R74, R188, D16). -/

namespace Sys2Proof.Machine

/-- WRITE (R132): the byte is sent unchanged. -/
def writeEvents (w : Width) (b : Byte) : List Event := dataSend w b

/-- WRITE_SEQ (R133): WRITE for each byte in list order; the empty list emits nothing. -/
def writeSeqEvents (w : Width) (bs : List Byte) : List Event := bs.flatMap (writeEvents w)

/-- GLYPH (R134): SET_CGRAM of `(id * 8) mod 2^8`, then every row. -/
def glyphEvents (w : Width) (id : Byte) (rows : List Byte) : List Event :=
  setCgramEvents w (glyphAddress id) ++ writeSeqEvents w rows

/-- CURSOR (R135): SET_DDRAM of `(col + row * 0x40) mod 2^8`. -/
def cursorEvents (w : Width) (row col : Byte) : List Event := setDdramEvents w (cursorAddress row col)

/-- WRITE_AT (R136): CURSOR, then WRITE_SEQ. -/
def writeAtEvents (w : Width) (row col : Byte) (bs : List Byte) : List Event :=
  cursorEvents w row col ++ writeSeqEvents w bs

/-- WRITE (R132), for every byte. -/
def execWrite (b : Byte) (s : State) : Host.Outcome State Fault Refusal := perform (writeEvents s.width b) s

/-- WRITE_SEQ (R133), for every finite list. -/
def execWriteSeq (bs : List Byte) (s : State) : Host.Outcome State Fault Refusal :=
  perform (writeSeqEvents s.width bs) s

/-- GLYPH (R134), for every id and every number of rows. -/
def execGlyph (id : Byte) (rows : List Byte) (s : State) : Host.Outcome State Fault Refusal :=
  perform (glyphEvents s.width id rows) s

/-- CURSOR (R135), for every row and column. -/
def execCursor (row col : Byte) (s : State) : Host.Outcome State Fault Refusal :=
  perform (cursorEvents s.width row col) s

/-- WRITE_AT (R136), for every row, column and list. -/
def execWriteAt (row col : Byte) (bs : List Byte) (s : State) : Host.Outcome State Fault Refusal :=
  perform (writeAtEvents s.width row col bs) s

end Sys2Proof.Machine
end

