-- ==== Sys2Proof/Machine/Init.lean ====
section
/-! DEFINITION. The initialization state machine (R160 to R167): the action and the successor of each INIT_STEP, one move of
the machine, the whole sequence, and the meaning of INIT. -/

namespace Sys2Proof.Machine

/-- The host's move that makes a block (R192, R200, R203). A host that has not met the controller's power-on wait (R204) "has no
move in the model". -/
def construct (p : Params) : Host.Outcome State Fault Refusal :=
  if p.powerOnReady then .next (State.atConstruction p) else .refused .powerOnNotReady

/-- The column `next` of R160. -/
def InitStep.succ : InitStep → InitStep
  | .s0 => .s1
  | .s1 => .s2
  | .s2 => .s3
  | .s3 => .s4
  | .s4 => .done
  | .done => .done

/-- The column `action` of R160. S0 is UNVERIFIED (log 7); S3 is the one branch, on the fixed W (R163). -/
def initAction (w : Width) : InitStep → List Event
  | .s0 => [.set .rs false]
  | .s1 => writeNibble w 0x3
  | .s2 => writeNibble w 0x3
  | .s3 => match w with
    | .four => writeNibble .four 0x2
    | .eight => []
  | .s4 => [.set .rw false]
  | .done => []

/-- One move of the machine: the action of the current INIT_STEP, then the next one. PHASE becomes READY with DONE
(R25, R165). -/
def initAdvance (s : State) : State :=
  let t := s.emitAll (initAction s.width s.initStep)
  { t with
    initStep := s.initStep.succ
    phase := match s.initStep.succ with
      | .done => .ready
      | _ => s.phase }

/-- The initialization's complete event list (R166). -/
def initEvents (w : Width) : List Event :=
  initAction w .s0 ++ initAction w .s1 ++ initAction w .s2 ++ initAction w .s3 ++ initAction w .s4

/-- How many events of the whole list come before the action of an INIT_STEP. -/
def initOffset (w : Width) : InitStep → Nat
  | .s0 => 0
  | .s1 => (initAction w .s0).length
  | .s2 => (initAction w .s0 ++ initAction w .s1).length
  | .s3 => (initAction w .s0 ++ initAction w .s1 ++ initAction w .s2).length
  | .s4 => (initAction w .s0 ++ initAction w .s1 ++ initAction w .s2 ++ initAction w .s3).length
  | .done => (initEvents w).length

/-- The INIT_STEP the event with this index belongs to. On W = 8 no event belongs to S3, which the machine then leaves
with no event (R163; DEDUCED, log 5). -/
def initStepAt (w : Width) (k : Nat) : InitStep :=
  if k < initOffset w .s1 then .s0
  else if k < initOffset w .s2 then .s1
  else if k < initOffset w .s3 then .s2
  else if k < initOffset w .s4 then .s3
  else if k < initOffset w .done then .s4
  else .done

/-- The initialization run to its end from the current INIT_STEP: at most five moves, since DONE is last "for ever". -/
def runInit (s : State) : State := initAdvance (initAdvance (initAdvance (initAdvance (initAdvance s))))

/-- INIT (R160): the initialization, run to completion; it has no move once the block is READY (R167, R192). -/
def execInit (s : State) : Host.Outcome State Fault Refusal :=
  match initGate s with
  | some r => .refused r
  | none => .next (runInit s)

end Sys2Proof.Machine
end

