-- ==== Sys2Proof/Machine/Dispatch.lean ====
section
/-! DEFINITION. One arm for each instruction. -/

namespace Sys2Proof.Machine

def exec (i : Instr) (s : State) : Host.Outcome State Fault Refusal :=
  match i with
  | .clear => Sys2Proof.Machine.execClear s
  | .home => Sys2Proof.Machine.execHome s
  | .entry dir shift => Sys2Proof.Machine.execEntry dir shift s
  | .display d c b => Sys2Proof.Machine.execDisplay d c b s
  | .shiftCursor dir => Sys2Proof.Machine.execShiftCursor dir s
  | .shiftDisplay dir => Sys2Proof.Machine.execShiftDisplay dir s
  | .function lines grid => Sys2Proof.Machine.execFunction lines grid s
  | .setCgram a => Sys2Proof.Machine.execSetCgram a s
  | .setDdram a => Sys2Proof.Machine.execSetDdram a s
  | .write b => Sys2Proof.Machine.execWrite b s
  | .writeSeq bs => Sys2Proof.Machine.execWriteSeq bs s
  | .glyph id rows => Sys2Proof.Machine.execGlyph id rows s
  | .cursor row col => Sys2Proof.Machine.execCursor row col s
  | .writeAt row col bs => Sys2Proof.Machine.execWriteAt row col bs s
  | .init => Sys2Proof.Machine.execInit s

end Sys2Proof.Machine
end

