-- ==== Sys2Proof/Machine/Events.lean ====
section
/-! DEFINITION. The event list of an instruction as a pure function of W and the operands (R10), the running operation as a
position in that list (R22), and the machine at the level of single events (D1): one tick is one event, or the host's
invocation of the next operation. -/

namespace Sys2Proof.Machine

/-- "a pure function from the block's parameters (W) and the operation's arguments to a finite list of events" (R10). -/
def eventsOf (w : Width) : Instr → List Event
  | .clear => clearEvents w
  | .home => homeEvents w
  | .entry dir shift => entryEvents w dir shift
  | .display d c b => displayEvents w d c b
  | .shiftCursor dir => shiftCursorEvents w dir
  | .shiftDisplay dir => shiftDisplayEvents w dir
  | .function lines grid => functionEvents w lines grid
  | .setCgram a => setCgramEvents w a
  | .setDdram a => setDdramEvents w a
  | .write b => writeEvents w b
  | .writeSeq bs => writeSeqEvents w bs
  | .glyph id rows => glyphEvents w id rows
  | .cursor row col => cursorEvents w row col
  | .writeAt row col bs => writeAtEvents w row col bs
  | .init => initEvents w

/-- The state with `k` events of `op` emitted: "An operation ends when its last event has been emitted" (R22), and the end
of INIT is DONE and READY (R165). -/
def State.locate (op : Instr) (k : Nat) (s : State) : State :=
  { s with
    inFlight := if k < (eventsOf s.width op).length then some ⟨op, k⟩ else none
    initStep := if op = .init then initStepAt s.width k else s.initStep
    phase := if op = .init ∧ (eventsOf s.width op).length ≤ k then .ready else s.phase }

/-- The events a running operation has still to emit. -/
def State.remaining (s : State) : List Event :=
  match s.inFlight with
  | none => []
  | some f => (eventsOf s.width f.op).drop f.index

/-- The running operation emits its next event. -/
def tickEvent (f : InFlight) (s : State) : State :=
  match (eventsOf s.width f.op)[f.index]? with
  | some ev => (s.emit ev).locate f.op (f.index + 1)
  | none => s.locate f.op f.index

/-- The running operation emits the rest of its list: each "runs to completion before the next begins" (R187). -/
def finishRunning (f : InFlight) (s : State) : State :=
  (s.emitAll s.remaining).locate f.op (eventsOf s.width f.op).length

/-- The host invokes an operation of R123 to R136: nothing is emitted yet. INIT is no such operation (R192). -/
def invoke (i : Instr) (s : State) : Host.Outcome State Fault Refusal :=
  match i with
  | .init => .refused .reinitialize
  | .clear | .home | .entry .. | .display .. | .shiftCursor .. | .shiftDisplay .. | .function .. | .setCgram ..
  | .setDdram .. | .write .. | .writeSeq .. | .glyph .. | .cursor .. | .writeAt .. => .next (s.locate i 0)

/-- One tick of the event-level machine: the running operation's next event; or, with nothing running, the initialization
taken up where INIT_STEP stands, or the host's next invocation. -/
def tick (s : State) : Host.Outcome State Fault Refusal :=
  match s.inFlight with
  | some f => .next (tickEvent f s)
  | none =>
    match s.phase with
    | .initializing => .next (s.locate .init (initOffset s.width s.initStep))
    | .ready =>
      match s.calls with
      | [] => .refused .runEnded
      | i :: rest => invoke i { s with calls := rest }

/-- `n` ticks, stopping where a tick is refused. -/
def ticks : Nat → State → Host.Outcome State Fault Refusal
  | 0, s => .next s
  | n + 1, s =>
    match tick s with
    | .next t => ticks n t
    | .fault r => .fault r
    | .refused r => .refused r

/-- A running operation finished, and a construction finished: the state in which the host's next invocation is taken. -/
def State.settle (s : State) : State :=
  let t := match s.inFlight with
    | some f => finishRunning f s
    | none => s
  match t.phase with
  | .initializing => runInit t
  | .ready => t

end Sys2Proof.Machine
end

