-- ==== Sys2Proof/Machine/Latch.lean ====
section
/-! DEFINITION. The latch view (R55): what the controller sees of a trace, "a function of the trace alone"; and the counts
and sums of R108, R139 and R219. -/

namespace Sys2Proof

/-- A transfer: the levels of RS and of the data lines at one `SET(E, 1)` (R55). -/
structure Transfer where
  rs : Level
  data : List Level
deriving DecidableEq, Repr

/-- The levels a `SET(E, 1)` finds. -/
def Levels.transfer (lv : Levels) : Transfer := ⟨lv.rs, lv.data⟩

/-- The transfers of a list of events that starts at the given levels: one for each sub-list
`SET(E, 1), SLEEP(1), SET(E, 0), SLEEP(100)` (R55). -/
def transfersFrom (lv : Levels) : List Event → List Transfer
  | [] => []
  | ev :: rest =>
    if (ev :: rest).take 4 = pulse then lv.transfer :: transfersFrom (lv.apply ev) rest
    else transfersFrom (lv.apply ev) rest

/-- The transfers of a whole trace: before its first event the block has driven no pin. -/
def transfers (w : Width) (trace : List Event) : List Transfer := transfersFrom (Levels.allUndriven w) trace

/-- The same transfers read at the falling edge instead: the levels that each `SET(E, 0)` finds (R55). -/
def fallingTransfersFrom (lv : Levels) : List Event → List Transfer
  | [] => []
  | ev :: rest =>
    if ev = .set .e false then lv.transfer :: fallingTransfersFrom (lv.apply ev) rest
    else fallingTransfersFrom (lv.apply ev) rest

/-- A level as a bit. A level U is none: it "must not" be read "as 0 or as 1" (R26). -/
def Level.bit? : Level → Option Bool
  | .low => some false
  | .high => some true
  | .undriven => none

/-- The number on the data lines, D0 least significant; none if a line is U. -/
def linesValue : List Level → Option Nat
  | [] => some 0
  | l :: ls =>
    match l.bit?, linesValue ls with
    | some b, some v => some (b.toNat + 2 * v)
    | _, _ => none

/-- The bus word of a transfer, `RS:value` (R55). -/
def Transfer.latchWord (t : Transfer) : Option LatchWord :=
  match t.rs.bit?, linesValue t.data with
  | some rs, some v => some ⟨rs, v⟩
  | _, _ => none

/-- The bus words of a list of transfers; a transfer with a line at U has none. -/
def latchWords : List Transfer → Except DecodeReject (List LatchWord)
  | [] => .ok []
  | t :: ts =>
    match t.latchWord, latchWords ts with
    | some x, .ok xs => .ok (x :: xs)
    | none, _ => .error .undrivenLine
    | _, .error r => .error r

/-- The latch view of a list of events from given levels, decoded into operations (R72). -/
def decodeEventsFrom (w : Width) (lv : Levels) (evs : List Event) : Except DecodeReject (List Instr) :=
  match latchWords (transfersFrom lv evs) with
  | .error r => .error r
  | .ok xs => decodeLatched w xs

/-- The requested amount of an event's sleep, in µs (R220). -/
def Event.sleepUs : Event → Nat
  | .set _ _ => 0
  | .sleep us => us

/-- The requested sleep total of a list of events (R108, R219). -/
def requestedSleep (evs : List Event) : Nat := (evs.map Event.sleepUs).sum

/-- The sleep requests of a list of events, in order: what the source's recording mock asserts over (R27). -/
def sleepsOf : List Event → List Nat
  | [] => []
  | .sleep us :: rest => us :: sleepsOf rest
  | .set _ _ :: rest => sleepsOf rest

/-- The number of enable pulses: the `SET(E, 1)` events (R108, R139). -/
def pulseCount (evs : List Event) : Nat := evs.count (.set .e true)

/-- The SET events on the R/W pin (R164). -/
def Event.isRw : Event → Bool
  | .set .rw _ => true
  | _ => false

end Sys2Proof
end

