-- ==== Sys2Proof/Machine/Step.lean ====
section
/-! DEFINITION. One step of the machine at the level of operations, and the placing of an instruction word for the host's
questions about the opcode table. -/

namespace Sys2Proof.Machine

/-- One step. A running operation runs to its end first (R187). While INITIALIZING the block makes one move of the
initialization (R160, R165). When READY it takes the host's next invocation and runs it whole (R122); with none pending
the run has ended (R205). -/
def step (s : State) : Host.Outcome State Fault Refusal :=
  match s.inFlight with
  | some f => .next (finishRunning f s)
  | none =>
    match s.phase with
    | .initializing => .next (initAdvance s)
    | .ready =>
      match s.calls with
      | [] => .refused .runEnded
      | i :: rest => exec i { s with calls := rest }

/-- The host's next invocation is the instruction of a table word. The block fetches nothing (R22): it must be READY and at
rest for a call to be taken, so a running operation and the construction are finished first (log 3). A word that is no
instruction's leaves no call to take. -/
def State.withFetchWord (s : State) (nbits w : Nat) : State :=
  let t := s.settle
  match decodeTableWord nbits w with
  | some i => { t with calls := i :: t.calls }
  | none => { t with calls := [] }

end Sys2Proof.Machine
end

