-- ==== Sys2Proof/Safety.lean ====
section
/-! DEFINITION. The terms claims are stated in: what "emits exactly these events and changes nothing else" means (R138), the
hazard rules as checks on a trace (R206, R207), the bytes that are never sent (R73), and the invariant of every run: the
trace is the initialization followed by whole operations, and LV is what the trace leaves of pin_init. -/

namespace Sys2Proof

/-- The hazard rules on a trace. Each `SET(E, 1)` is followed by exactly `SLEEP(1)` and then `SET(E, 0)` (R206), so nothing
is driven while E is high (R209); each `SET(E, 0)` is followed at once by `SLEEP(100)` (R207). -/
def hazardFree : List Event → Bool
  | [] => true
  | ev :: rest =>
    (match ev with
      | .set .e true => rest.take 2 == [.sleep 1, .set .e false]
      | .set .e false => rest.take 1 == [.sleep 100]
      | _ => true) && hazardFree rest

/-- The bytes R73 lists as never sent in CMD format on width W. -/
def neverSent (w : Width) (b : Byte) : Bool :=
  b == 0x00 || b == 0x03
    || (decide (0x11 ≤ b.toNat ∧ b.toNat ≤ 0x1F) && b &&& 0x03 != 0)
    || (decide (0x21 ≤ b.toNat ∧ b.toNat ≤ 0x3F) && b &&& 0x03 != 0)
    || (match w with
      | .eight => [0x20, 0x24, 0x28, 0x2C].contains b
      | .four => [0x30, 0x34, 0x38, 0x3C].contains b)

/-- The opcode constant of a command (R61); the other rows have none. -/
def Instr.opcode : Instr → Option Byte
  | .clear => some 0x01
  | .home => some 0x02
  | .entry _ _ => some 0x04
  | .display _ _ _ => some 0x08
  | .shiftCursor _ => some 0x10
  | .shiftDisplay _ => some 0x10
  | .function _ _ => some 0x20
  | .setCgram _ => some 0x40
  | .setDdram _ => some 0x80
  | .write _ => none
  | .writeSeq _ => none
  | .glyph _ _ => none
  | .cursor _ _ => none
  | .writeAt _ _ _ => none
  | .init => none

/-- The latch view of the initialization (R166). -/
def initLatchView : Width → List LatchWord
  | .four => [⟨false, 0x3⟩, ⟨false, 0x3⟩, ⟨false, 0x2⟩]
  | .eight => [⟨false, 0x30⟩, ⟨false, 0x30⟩]

namespace Machine

/-- The host can invoke an operation: the block is READY (R24) and no operation is running (R187). -/
abbrev State.Idle (s : State) : Prop := s.phase = .ready ∧ s.inFlight = none

/-- Between two moves of the initialization. -/
abbrev State.BetweenInitMoves (s : State) : Prop := s.phase = .initializing ∧ s.inFlight = none

/-- `n` steps, stopping at the first that is refused: `Host.Core.run` at this machine. -/
def steps : Nat → State → Host.Outcome State Fault Refusal
  | 0, s => .next s
  | n + 1, s =>
    match step s with
    | .next t => steps n t
    | .fault r => .fault r
    | .refused r => .refused r

/-- From `s` to `t` exactly these events are emitted: they are appended to TRACE (R27), LV changes by their SETs alone
(R26), and nothing else changes (R138). -/
structure Emits (s t : State) (evs : List Event) : Prop where
  trace : t.trace = s.trace ++ evs
  lv : t.lv = s.lv.applyAll evs
  width : t.width = s.width
  phase : t.phase = s.phase
  initStep : t.initStep = s.initStep
  inFlight : t.inFlight = s.inFlight
  calls : t.calls = s.calls

/-- From `s` to `t` the initialization emits these events and stands at `st` with this PHASE; W, the running operation and
the host's calls are unchanged. -/
structure InitMoves (s t : State) (evs : List Event) (st : InitStep) (ph : Phase) : Prop where
  trace : t.trace = s.trace ++ evs
  lv : t.lv = s.lv.applyAll evs
  initStep : t.initStep = st
  phase : t.phase = ph
  width : t.width = s.width
  inFlight : t.inFlight = s.inFlight
  calls : t.calls = s.calls

/-- The trace is a list of whole operations of R123 to R136 after the whole initialization. -/
def WholeOperations (s : State) (tr : List Event) : Prop :=
  ∃ ops : List Instr, (∀ i ∈ ops, i.hostCallable = true) ∧ tr = initEvents s.width ++ ops.flatMap (eventsOf s.width)

/-- Where the trace stands: the initialization up to INIT_STEP or up to an event of it; or the whole initialization, whole
operations (R47, R211), and the running operation up to its position (R22). -/
def TraceShape (s : State) : Prop :=
  match s.phase, s.inFlight with
  | .initializing, none =>
    s.initStep ≠ .done ∧ s.trace = (initEvents s.width).take (initOffset s.width s.initStep)
  | .initializing, some f =>
    f.op = .init ∧ f.index < (initEvents s.width).length ∧ s.initStep = initStepAt s.width f.index ∧
      s.trace = (initEvents s.width).take f.index
  | .ready, none => s.initStep = .done ∧ WholeOperations s s.trace
  | .ready, some f =>
    s.initStep = .done ∧ f.op.hostCallable = true ∧ f.index < (eventsOf s.width f.op).length ∧
      ∃ tr, WholeOperations s tr ∧ s.trace = tr ++ (eventsOf s.width f.op).take f.index

/-- The invariant of every run of a block constructed with `p`, by a host that met its duty before construction (R192:
`power_on_ready` is "a premise of every claim", R5). -/
structure Coherent (p : Params) (s : State) : Prop where
  powerOnReady : p.powerOnReady = true
  width : s.width = p.width
  lv : s.lv = p.pinInit.applyAll s.trace
  shape : TraceShape s

end Machine

end Sys2Proof
end

