-- ==== Sys2Proof/Certificates/Slice0/Obligations.lean ====
section
/-! DEFINITION. The statements for the provers. Each docstring names the rule or the spec's sentence it formalises. Where a
statement rests on a decision of the spec (`D<n>`) or on general knowledge the spec marks as such (`G<n>`), its docstring
says so and names the log entry. -/

open Sys2Proof Sys2Proof.Machine

/-! ## Construction and reset -/

/-- R200, R33: construction sets the state to the reset values and starts the initialization at S0. R192: a host that has
not met the power-on wait has no such move (the refusal's name is the model's, log 6). -/
def Obligations.ConstructionSetsResetValues : Prop :=
  ∀ p : Params,
    (p.powerOnReady = true → ∃ s : State, construct p = .next s ∧ s.width = p.width ∧ s.phase = .initializing ∧
      s.initStep = .s0 ∧ s.lv = p.pinInit ∧ s.trace = [] ∧ s.inFlight = none) ∧
    (p.powerOnReady = false → construct p = .refused .powerOnNotReady)

/-- R5, D13: in `State.reset` every pin that exists is at U, the default of pin_init. That it has W = 8 is the model's
choice (log 1) and not claimed here. -/
def Obligations.ResetLeavesEveryPinUndriven : Prop :=
  (∃ p : Params, p.wellFormed = true ∧ construct p = .next State.reset) ∧
  ∀ pin : Pin, pin.exists State.reset.width = true → State.reset.lv.get pin = some .undriven

/-! ## The initialization state machine -/

/-- R160: the table of the state machine, one row for each INIT_STEP. S0 is the spec's decision D6 and the placement of the
nibble on W = 8 its decision D3 (log 7). -/
def Obligations.InitializationFollowsItsTable : Prop :=
  ∀ s : State, s.BetweenInitMoves →
    (s.initStep = .s0 → ∃ t, step s = .next t ∧ InitMoves s t [.set .rs false] .s1 .initializing) ∧
    (s.initStep = .s1 → ∃ t, step s = .next t ∧ InitMoves s t (writeNibble s.width 0x3) .s2 .initializing) ∧
    (s.initStep = .s2 → ∃ t, step s = .next t ∧ InitMoves s t (writeNibble s.width 0x3) .s3 .initializing) ∧
    (s.initStep = .s3 → s.width = .four →
      ∃ t, step s = .next t ∧ InitMoves s t (writeNibble .four 0x2) .s4 .initializing) ∧
    (s.initStep = .s3 → s.width = .eight → ∃ t, step s = .next t ∧ InitMoves s t [] .s4 .initializing) ∧
    (s.initStep = .s4 → ∃ t, step s = .next t ∧ InitMoves s t [.set .rw false] .done .ready)

/-- R163: the bus-width branch, with the levels the further nibble puts on D0..D3. The order of the SETs and the numbering of
the lines are R104's decisions D4 and D2 (log 7). -/
def Obligations.BusWidthBranchReadsOnlyW : Prop :=
  ∀ s : State, s.BetweenInitMoves → s.initStep = .s3 →
    (s.width = .four → ∃ t, step s = .next t ∧
      t.trace = s.trace ++ [.set (.d 0) false, .set (.d 1) true, .set (.d 2) false, .set (.d 3) false,
        .set .e true, .sleep 1, .set .e false, .sleep 100]) ∧
    (s.width = .eight → ∃ t, step s = .next t ∧ t.trace = s.trace ∧ t.lv = s.lv)

/-- R166 with R33's column "value when construction returns": INIT from the start of construction completes, with the whole
event list and the pin levels it leaves. The S0 event is D6, the W = 8 nibble D3 (log 7). -/
def Obligations.InitEmitsItsWholeSequence : Prop :=
  ∀ p : Params, p.wellFormed = true → ∃ s, construct p = .next s ∧
    (p.width = .four → ∃ t, exec .init s = .next t ∧
      t.trace =
        [.set .rs false] ++
        [.set (.d 0) true, .set (.d 1) true, .set (.d 2) false, .set (.d 3) false,
          .set .e true, .sleep 1, .set .e false, .sleep 100] ++
        [.set (.d 0) true, .set (.d 1) true, .set (.d 2) false, .set (.d 3) false,
          .set .e true, .sleep 1, .set .e false, .sleep 100] ++
        [.set (.d 0) false, .set (.d 1) true, .set (.d 2) false, .set (.d 3) false,
          .set .e true, .sleep 1, .set .e false, .sleep 100] ++
        [.set .rw false] ∧
      t.phase = .ready ∧ t.initStep = .done ∧ t.width = .four ∧ requestedSleep t.trace = 303 ∧
      t.lv = ⟨.low, .low, .low, [.low, .high, .low, .low]⟩) ∧
    (p.width = .eight → ∃ t, exec .init s = .next t ∧
      t.trace =
        [.set .rs false] ++
        [.set (.d 0) false, .set (.d 1) false, .set (.d 2) false, .set (.d 3) false,
          .set (.d 4) true, .set (.d 5) true, .set (.d 6) false, .set (.d 7) false,
          .set .e true, .sleep 1, .set .e false, .sleep 100] ++
        [.set (.d 0) false, .set (.d 1) false, .set (.d 2) false, .set (.d 3) false,
          .set (.d 4) true, .set (.d 5) true, .set (.d 6) false, .set (.d 7) false,
          .set .e true, .sleep 1, .set .e false, .sleep 100] ++
        [.set .rw false] ∧
      t.phase = .ready ∧ t.initStep = .done ∧ t.width = .eight ∧ requestedSleep t.trace = 202 ∧
      t.lv = ⟨.low, .low, .low, [.low, .low, .low, .low, .high, .high, .low, .low]⟩)

/-- R160, R165: from every INIT_STEP between two moves, the moves that are left emit what is left of the sequence, leave DONE
and READY, and change neither W nor the host's calls. From S0 they are the spec's INIT; that INIT at S1 to S4 is the moves
that are left is the model's choice (log 3). -/
def Obligations.InitCompletesFromEveryStep : Prop :=
  ∀ s : State, s.BetweenInitMoves → ∃ t, exec .init s = .next t ∧
    InitMoves s t ((initEvents s.width).drop (initOffset s.width s.initStep)) .done .ready

/-- R160, R165, R24: from construction, five moves of the machine are the instruction INIT, and PHASE is INITIALIZING until
the last of them. That one step is one INIT_STEP is the model's choice (log 3). -/
def Obligations.FiveMovesAreInit : Prop :=
  ∀ (p : Params) (s : State), construct p = .next s →
    steps 5 s = exec .init s ∧ ∀ k, k < 5 → ∃ t : State, steps k s = .next t ∧ t.phase = .initializing

/-- R164: S4 drives R/W low; no other move of the initialization and no operation drives it; until S4 its level is
pin_init(RW); and the run's trace holds that one event on R/W once the block is READY, none before. -/
def Obligations.ReadWriteDrivenLowExactlyOnce : Prop :=
  (∀ s : State, s.BetweenInitMoves → s.initStep = .s4 →
    ∃ t, step s = .next t ∧ t.trace = s.trace ++ [.set .rw false] ∧ t.lv.rw = .low) ∧
  (∀ w st, st ≠ .s4 → (initAction w st).filter Event.isRw = []) ∧
  (∀ w i, i ≠ .init → (eventsOf w i).filter Event.isRw = []) ∧
  (∀ p s, Coherent p s → s.phase = .initializing → s.trace.filter Event.isRw = [] ∧ s.lv.rw = p.pinInit.rw) ∧
  (∀ p s, Coherent p s → s.phase = .ready → s.trace.filter Event.isRw = [.set .rw false] ∧ s.lv.rw = .low)

/-- R167, R192: the block has no re-initialization. INIT has no move once the block is READY, no step of a READY block goes
back to INITIALIZING or leaves DONE, and no instruction that runs does. -/
def Obligations.NoReinitialization : Prop :=
  (∀ s : State, s.Idle → exec .init s = .refused .reinitialize) ∧
  (∀ s t : State, s.Idle → step s = .next t → t.phase = .ready ∧ t.initStep = s.initStep) ∧
  (∀ (i : Instr) (s t : State), s.phase = .ready → exec i s = .next t → t.phase = .ready ∧ t.initStep = s.initStep)

/-- R24: PHASE is INITIALIZING at the start of construction and until the last initialization event has been emitted, READY
from then on and never anything else again; in READY every operation of R123 to R136 can be invoked; in INITIALIZING none
can (R211; the name of the refusal is the model's, log 6). -/
def Obligations.PhaseGatesEveryOperation : Prop :=
  (∀ (p : Params) (s : State), construct p = .next s → s.phase = .initializing) ∧
  (∀ p s, Coherent p s → (s.phase = .ready ↔ initEvents s.width <+: s.trace)) ∧
  (∀ s t : State, s.phase = .ready → step s = .next t → t.phase = .ready) ∧
  (∀ (i : Instr) (s : State), i ≠ .init → s.Idle → ∃ t, exec i s = .next t) ∧
  (∀ (i : Instr) (s : State), i ≠ .init → s.BetweenInitMoves → exec i s = .refused .notReady)

/-- R122: an operation runs exactly when PHASE = READY and no other operation is running; it emits its whole event list in
order and returns nothing else. No step and no tick takes a call of the host in any other state: that clause is about the
model's own field of pending calls (log 2). -/
def Obligations.OperationsRunWholeExactlyWhenIdle : Prop :=
  (∀ (i : Instr) (s t : State), i ≠ .init →
    (exec i s = .next t ↔ s.Idle ∧ Emits s t (eventsOf s.width i))) ∧
  ∀ s t : State, ¬ s.Idle → (step s = .next t → t.calls = s.calls) ∧ (tick s = .next t → t.calls = s.calls)

/-- R187, D15: while an operation runs the host has no move, and the running operation emits the rest of its list
(log 6). -/
def Obligations.OneOperationAtATime : Prop :=
  ∀ (s : State) (f : InFlight), s.inFlight = some f →
    (∀ i : Instr, exec i s = .refused .operationInFlight) ∧
    ∃ t, step s = .next t ∧ t.inFlight = none ∧ t.calls = s.calls ∧
      t.trace = s.trace ++ (eventsOf s.width f.op).drop f.index

/-- R25: "It is DONE exactly when PHASE = READY" is kept by every step, and holds at construction. -/
def Obligations.DoneExactlyWhenReady : Prop :=
  (∀ (p : Params) (s : State), construct p = .next s → (s.initStep = .done ↔ s.phase = .ready)) ∧
  ∀ s t : State, (s.initStep = .done ↔ s.phase = .ready) → step s = .next t → (t.initStep = .done ↔ t.phase = .ready)

/-! ## The command encoder -/

/-- R81, R82: the two constant bytes. -/
def Obligations.ClearAndHomeBytes : Prop := encClear = 0x01 ∧ encHome = 0x02

/-- R88: the mask to 6 bits, its corner cases, and the range of the result. -/
def Obligations.CgramAddressIsMasked : Prop :=
  (∀ a : Byte, encCgram a = 0x40 ||| (a &&& 0x3F)) ∧
  (∀ a : Byte, 0x40 ≤ (encCgram a).toNat ∧ (encCgram a).toNat ≤ 0x7F) ∧
  encCgram 0x00 = 0x40 ∧ encCgram 0x3F = 0x7F ∧ encCgram 0x40 = 0x40 ∧ encCgram 0xFF = 0x7F

/-- R89: the address ORed into the opcode, bit 7 absorbed, the corner cases, and the range of the result. -/
def Obligations.DdramAddressIsAbsorbed : Prop :=
  (∀ a : Byte, encDdram a = 0x80 ||| a) ∧
  (∀ a : Byte, encDdram (a ||| 0x80) = encDdram (a &&& 0x7F)) ∧
  (∀ a : Byte, 0x80 ≤ (encDdram a).toNat) ∧
  encDdram 0x00 = 0x80 ∧ encDdram 0x7F = 0xFF ∧ encDdram 0x80 = 0x80 ∧ encDdram 0xFF = 0xFF ∧ encDdram 0x45 = 0xC5

/-- R83 to R87 as 95_test_vectors.md L2-1 to L2-4 list them. All but 0x04, 0x07, 0x08 and 0x0F rest on the field positions
the spec takes from general knowledge (D11, G5, G6, G8, G9; log 8). -/
def Obligations.ParameterFieldBytes : Prop :=
  (encEntry .decrement false = 0x04 ∧ encEntry .decrement true = 0x05 ∧
    encEntry .increment false = 0x06 ∧ encEntry .increment true = 0x07) ∧
  (encDisplay false false false = 0x08 ∧ encDisplay false false true = 0x09 ∧ encDisplay false true false = 0x0A ∧
    encDisplay false true true = 0x0B ∧ encDisplay true false false = 0x0C ∧ encDisplay true false true = 0x0D ∧
    encDisplay true true false = 0x0E ∧ encDisplay true true true = 0x0F) ∧
  (encShiftCursor .left = 0x10 ∧ encShiftCursor .right = 0x14 ∧
    encShiftDisplay .left = 0x18 ∧ encShiftDisplay .right = 0x1C) ∧
  (encFunction .four .one .grid5x8 = 0x20 ∧ encFunction .four .one .grid5x11 = 0x24 ∧
    encFunction .four .two .grid5x8 = 0x28 ∧ encFunction .four .two .grid5x11 = 0x2C ∧
    encFunction .eight .one .grid5x8 = 0x30 ∧ encFunction .eight .one .grid5x11 = 0x34 ∧
    encFunction .eight .two .grid5x8 = 0x38 ∧ encFunction .eight .two .grid5x11 = 0x3C)

/-- R61, R80 (derived in R61): the opcode bit is the highest set bit of every command byte. -/
def Obligations.OpcodeIsHighestBit : Prop :=
  ∀ (w : Width) (i : Instr) (x : BusWord) (o : Byte), encodeWord w i = some x → i.opcode = some o →
    x.rs = false ∧ x.byte &&& o = o ∧ x.byte.toNat < 2 * o.toNat

/-- R90 (derived there): on one width, two instructions send the same word only if they are one up to the CGRAM mask and the
DDRAM absorption. -/
def Obligations.EncoderIsInjective : Prop :=
  ∀ (w : Width) (i j : Instr) (x : BusWord), encodeWord w i = some x → encodeWord w j = some x →
    i.canonical = j.canonical

/-- R73 (derived there): the bytes listed are in no CMD word of any instruction; every other byte is the CMD word of some
instruction, and every byte is a DATA word. -/
def Obligations.NeverSentBytesAreNeverSent : Prop :=
  (∀ (w : Width) (i : Instr) (x : BusWord), x ∈ encode w i → x.rs = false → neverSent w x.byte = false) ∧
  (∀ (w : Width) (b : Byte), neverSent w b = false → ∃ i : Instr, encode w i = [⟨false, b⟩]) ∧
  (∀ (w : Width) (b : Byte), encode w (.write b) = [⟨true, b⟩])

/-! ## Decoding -/

/-- R60 to R69, R72: for every instruction that is what one bus word carries, that word decodes to it, on the block's width
and as a 9-bit word of the table. -/
def Obligations.DecodeOfEncodeIsTheInstruction : Prop :=
  ∀ (w : Width) (i : Instr), i.wellFormed = true →
    ∃ x : BusWord, encode w i = [x] ∧ decodeWord w x = .ok i ∧ decodeTableWord 9 x.bits.toNat = some i

/-- R72, R73: the other direction. A word the decoder accepts is the word of the instruction it gives, and it refuses exactly
the command bytes of R73. -/
def Obligations.DecoderAcceptsExactlyTheSentWords : Prop :=
  ∀ (w : Width) (x : BusWord),
    (∀ i : Instr, decodeWord w x = .ok i → encodeWord w i = some x ∧ i.canonical = i) ∧
    ((∃ r, decodeWord w x = .error r) ↔ x.rs = false ∧ neverSent w x.byte = true)

/-- spec/opcode_table.json: no two rows share a word, and an instruction's word is in the row of its mnemonic. -/
def Obligations.OpcodeRowsAreDisjoint : Prop :=
  opcodeRows.Pairwise (fun r q => ∀ x : BusWord, ¬ (r.covers x = true ∧ q.covers x = true)) ∧
  ∀ (w : Width) (i : Instr) (x : BusWord), encodeWord w i = some x →
    ∃ r ∈ opcodeRows, r.mnemonic = i.mnemonic ∧ r.covers x = true

/-- Words written out from R62 to R69 decode to the instructions they stand for. -/
def Obligations.WordsDecodeAsWritten : Prop :=
  decodeTableWord 9 0b000000001 = some .clear ∧
  decodeTableWord 9 0b000000010 = some .home ∧
  decodeTableWord 9 0b000000101 = some (.entry .decrement true) ∧
  decodeTableWord 9 0b000001100 = some (.display true false false) ∧
  decodeTableWord 9 0b000010100 = some (.shiftCursor .right) ∧
  decodeTableWord 9 0b000011000 = some (.shiftDisplay .left) ∧
  decodeTableWord 9 0b000101000 = some (.function .two .grid5x8) ∧
  decodeTableWord 9 0b000110100 = some (.function .one .grid5x11) ∧
  decodeTableWord 9 0b001111111 = some (.setCgram 0x3F) ∧
  decodeTableWord 9 0b011000101 = some (.setDdram 0x45) ∧
  decodeTableWord 9 0b101000001 = some (.write 0x41)

/-! ## The transport -/

/-- R100: the four events of one enable pulse. -/
def Obligations.PulseIsFourEvents : Prop :=
  pulse = [.set .e true, .sleep 1, .set .e false, .sleep 100]

/-- R41: on the 8-line bus bit i of the byte is on line Di when the byte is latched and after it. -/
def Obligations.ByteBitsOnEightLines : Prop :=
  ∀ (lv : Levels) (b : Byte) (k : Fin 8), lv.fits .eight = true →
    (lv.applyAll (writeByte .eight b)).get (.d k) = some (Level.ofBool (b.getLsbD k.val)) ∧
    transfersFrom lv (writeByte .eight b) = [⟨lv.rs, (lv.applyAll (writeByte .eight b)).data⟩]

/-- R105: two nibble transfers, b[7:4] first and then b[3:0], with nothing between them, and exactly two pulses. -/
def Obligations.FourLineByteIsTwoNibbles : Prop :=
  ∀ b : Byte, writeByte .four b = writeNibble .four (b.extractLsb' 4 4) ++ writeNibble .four (b.extractLsb' 0 4) ∧
    pulseCount (writeByte .four b) = 2

/-- R101 to R104, R120, R121 written out event by event. The order of the calls is D4, the 4-line numbering D2, the 8-line
nibble D3 and the one SET of RS for each byte D5 (log 7). -/
def Obligations.TransfersWrittenOut : Prop :=
  (∀ b : Byte, writeByte .eight b =
    [.set (.d 0) (b.getLsbD 0), .set (.d 1) (b.getLsbD 1), .set (.d 2) (b.getLsbD 2), .set (.d 3) (b.getLsbD 3),
      .set (.d 4) (b.getLsbD 4), .set (.d 5) (b.getLsbD 5), .set (.d 6) (b.getLsbD 6), .set (.d 7) (b.getLsbD 7),
      .set .e true, .sleep 1, .set .e false, .sleep 100]) ∧
  (∀ n : Nibble, writeNibble .eight n =
    [.set (.d 0) false, .set (.d 1) false, .set (.d 2) false, .set (.d 3) false,
      .set (.d 4) (n.getLsbD 0), .set (.d 5) (n.getLsbD 1), .set (.d 6) (n.getLsbD 2), .set (.d 7) (n.getLsbD 3),
      .set .e true, .sleep 1, .set .e false, .sleep 100]) ∧
  (∀ n : Nibble, writeNibble .four n =
    [.set (.d 0) (n.getLsbD 0), .set (.d 1) (n.getLsbD 1), .set (.d 2) (n.getLsbD 2), .set (.d 3) (n.getLsbD 3),
      .set .e true, .sleep 1, .set .e false, .sleep 100]) ∧
  (∀ (w : Width) (b : Byte), cmdSend w b = .set .rs false :: writeByte w b ∧ dataSend w b = .set .rs true :: writeByte w b)

/-- R107: the transport never drives RS or RW, drives only lines the pin group has, and sleeps only 1 and 100 µs. -/
def Obligations.TransportDrivesOnlyEnableAndData : Prop :=
  ∀ (w : Width) (b : Byte) (n : Nibble) (ev : Event), ev ∈ writeByte w b ∨ ev ∈ writeNibble w n →
    (∃ v, ev = .set .e v) ∨ (∃ (k : Fin 8) (v : Bool), k.val < w.lines ∧ ev = .set (.d k) v) ∨
      ev = .sleep 1 ∨ ev = .sleep 100

/-! ## Results and completion of the operations -/

/-- R123, R124: CLEAR and HOME send their byte and then request 2000 µs more. The place and the exact amount of that sleep
are D8 and D7 (log 7). -/
def Obligations.SlowCommandsComplete : Prop :=
  ∀ s : State, s.Idle →
    (∃ t, exec .clear s = .next t ∧ Emits s t (.set .rs false :: writeByte s.width 0x01 ++ [.sleep 2000])) ∧
    (∃ t, exec .home s = .next t ∧ Emits s t (.set .rs false :: writeByte s.width 0x02 ++ [.sleep 2000]))

/-- R125, R126: ENTRY and DISPLAY send their encoded byte and nothing more, for every operand. -/
def Obligations.EntryAndDisplayComplete : Prop :=
  ∀ s : State, s.Idle →
    (∀ (dir : EntryDir) (shift : Bool),
      ∃ t, exec (.entry dir shift) s = .next t ∧ Emits s t (cmdSend s.width (encEntry dir shift))) ∧
    (∀ d c b : Bool, ∃ t, exec (.display d c b) s = .next t ∧ Emits s t (cmdSend s.width (encDisplay d c b))) ∧
    encEntry .increment true = 0x07 ∧ encDisplay true true true = 0x0F ∧ encDisplay false false false = 0x08

/-- R127, R128: the two shifts, by their bytes. The positions of SC and RL are general knowledge (G8, log 8). -/
def Obligations.ShiftsComplete : Prop :=
  ∀ s : State, s.Idle →
    (∃ t, exec (.shiftDisplay .left) s = .next t ∧ Emits s t (cmdSend s.width 0x18)) ∧
    (∃ t, exec (.shiftDisplay .right) s = .next t ∧ Emits s t (cmdSend s.width 0x1C)) ∧
    (∃ t, exec (.shiftCursor .left) s = .next t ∧ Emits s t (cmdSend s.width 0x10)) ∧
    (∃ t, exec (.shiftCursor .right) s = .next t ∧ Emits s t (cmdSend s.width 0x14))

/-- R129: FUNCTION takes the bus-width bit from W and never from the caller, so it always names the bus mode that the
initialization left (R168). N and F are general knowledge (G9, log 8). -/
def Obligations.FunctionTakesBusWidthFromW : Prop :=
  ∀ (s : State) (lines : LineCount) (grid : CharGrid), s.Idle →
    (∃ t, exec (.function lines grid) s = .next t ∧ Emits s t (cmdSend s.width (encFunction s.width lines grid))) ∧
    (encFunction s.width lines grid).getLsbD 4 = s.width.eightBits ∧
    (encFunction s.width lines grid).getLsbD 5 = true ∧
    (encFunction s.width lines grid).getLsbD 3 = decide (lines = .two) ∧
    (encFunction s.width lines grid).getLsbD 2 = decide (grid = .grid5x11) ∧
    encFunction s.width lines grid &&& 0xC3 = 0

/-- R130, R131: the two address commands for every 8-bit address, with the spec's examples. -/
def Obligations.AddressCommandsComplete : Prop :=
  ∀ (s : State) (a : Byte), s.Idle →
    (∃ t, exec (.setCgram a) s = .next t ∧ Emits s t (cmdSend s.width (0x40 ||| (a &&& 0x3F)))) ∧
    (∃ t, exec (.setDdram a) s = .next t ∧ Emits s t (cmdSend s.width (0x80 ||| a))) ∧
    (∃ t, exec (.setCgram 0xFF) s = .next t ∧ Emits s t (cmdSend s.width 0x7F)) ∧
    (∃ t, exec (.setDdram 0x45) s = .next t ∧ Emits s t (cmdSend s.width 0xC5))

/-- R132: WRITE sends every byte unchanged, with RS high. -/
def Obligations.WriteSendsByteUnchanged : Prop :=
  ∀ (s : State) (b : Byte), s.Idle → ∃ t, exec (.write b) s = .next t ∧ Emits s t (dataSend s.width b)

/-- R133: WRITE_SEQ is WRITE for each byte in list order; the empty list emits nothing and so changes nothing. -/
def Obligations.WriteSequenceCompletes : Prop :=
  ∀ s : State, s.Idle →
    (∀ bs : List Byte, ∃ t, exec (.writeSeq bs) s = .next t ∧ Emits s t (bs.flatMap (dataSend s.width))) ∧
    exec (.writeSeq []) s = .next s

/-- R134, D25: GLYPH sends the command byte `0x40 + (id mod 8) * 8` and then every row (log 9). -/
def Obligations.GlyphCompletes : Prop :=
  ∀ (s : State) (id : Byte) (rows : List Byte), s.Idle →
    ∃ t, exec (.glyph id rows) s = .next t ∧
      Emits s t (cmdSend s.width (BitVec.ofNat 8 (0x40 + id.toNat % 8 * 8)) ++ rows.flatMap (dataSend s.width))

/-- R135, R51, D9: CURSOR sends SET_DDRAM of `(col + row * 0x40) mod 2^8`, so rows alias in steps of two: row 2 shows
row 0's addresses and row 3 row 1's (log 9). -/
def Obligations.CursorCompletes : Prop :=
  ∀ (s : State) (row col : Byte), s.Idle →
    (∃ t, exec (.cursor row col) s = .next t ∧
      Emits s t (cmdSend s.width (0x80 ||| BitVec.ofNat 8 (col.toNat + row.toNat * 0x40)))) ∧
    exec (.cursor (row + 2) col) s = exec (.cursor row col) s

/-- R136: WRITE_AT is CURSOR and then every byte; with no byte it is CURSOR (D9, D10; log 9). -/
def Obligations.WriteAtCompletes : Prop :=
  ∀ (s : State) (row col : Byte), s.Idle →
    (∀ bs : List Byte, ∃ t, exec (.writeAt row col bs) s = .next t ∧
      Emits s t (cmdSend s.width (0x80 ||| BitVec.ofNat 8 (col.toNat + row.toNat * 0x40)) ++
        bs.flatMap (dataSend s.width))) ∧
    exec (.writeAt row col []) s = exec (.cursor row col) s

/-- R77: each composite acts as its expansion (R133 to R136), one operation after the other; INIT is three (W = 8: two) NIB
transfers between two pin events (R166). The addresses modulo 2^8 are D9 and D25 (log 9), INIT's SET(RS, 0) is D6 and the
8-line nibble D3 (log 7), and that each operation is one step on the head of the pending calls is the model's choice
(logs 2, 3). -/
def Obligations.CompositesActAsTheirExpansion : Prop :=
  (∀ (i : Instr) (s : State), i.hostCallable = true → s.Idle →
    ∃ t, exec i s = .next t ∧ steps i.expand.length { s with calls := i.expand } =
      .next { t with calls := [] }) ∧
  (∀ bs, Instr.expand (.writeSeq bs) = bs.map .write) ∧
  (∀ id rows, Instr.expand (.glyph id rows) = .setCgram (id * 8) :: rows.map .write) ∧
  (∀ row col, Instr.expand (.cursor row col) = [.setDdram (col + row * 0x40)]) ∧
  (∀ row col bs, Instr.expand (.writeAt row col bs) = .setDdram (col + row * 0x40) :: bs.map .write) ∧
  eventsOf .four .init = [.set .rs false] ++ writeNibble .four 0x3 ++ writeNibble .four 0x3 ++ writeNibble .four 0x2 ++
    [.set .rw false] ∧
  eventsOf .eight .init = [.set .rs false] ++ writeNibble .eight 0x3 ++ writeNibble .eight 0x3 ++ [.set .rw false]

/-! ## Frames and levels -/

/-- R138: an operation changes LV only through its SET events and appends its events to TRACE; W, PHASE and INIT_STEP stay,
and no event is on R/W. -/
def Obligations.OperationsChangeOnlyPinsAndTrace : Prop :=
  ∀ (i : Instr) (s t : State), s.phase = .ready → exec i s = .next t →
    Emits s t (eventsOf s.width i) ∧ t.lv.rw = s.lv.rw ∧
    ∀ ev ∈ eventsOf s.width i, ev.isRw = false ∧ ev.wellFormed s.width = true

/-- R120, R121, R41 to R43: what an operation leaves on the pins. After a last word `RS:b`, RS is at its level, E is low and
Dk holds bit k of b (on W = 4 the low nibble); R/W and every pin that does not exist are untouched. An operation without a
word leaves every pin. D2 and D5 (log 7). -/
def Obligations.OperationsLeaveTheirLastWordOnThePins : Prop :=
  ∀ (i : Instr) (s t : State), s.Idle → s.lv.fits s.width = true → exec i s = .next t →
    (∀ x : BusWord, (encode s.width i).getLast? = some x →
      t.lv.rs = Level.ofBool x.rs ∧ t.lv.rw = s.lv.rw ∧ t.lv.e = .low ∧ t.lv.data.length = s.lv.data.length ∧
      ∀ k, k < s.width.lines → t.lv.data[k]? = some (Level.ofBool (x.byte.getLsbD k))) ∧
    (encode s.width i = [] → t.lv = s.lv)

/-- R10: the events an instruction emits depend on W and its operands alone, whatever the rest of the state is. -/
def Obligations.EventsDependOnlyOnWAndOperands : Prop :=
  ∀ (i : Instr) (s s' t t' : State), s.width = s'.width → s.phase = .ready → s'.phase = .ready →
    exec i s = .next t → exec i s' = .next t' →
    ∃ evs, t.trace = s.trace ++ evs ∧ t'.trace = s'.trace ++ evs

/-- R23: no step and no instruction changes W. -/
def Obligations.WidthNeverChanges : Prop :=
  (∀ s t : State, step s = .next t → t.width = s.width) ∧
  ∀ (i : Instr) (s t : State), exec i s = .next t → t.width = s.width

/-- R26: a SET writes the level of its pin and of no other, a SLEEP none; and in every step LV changes by the SETs that the
step appends to TRACE, by nothing else. A level U is read neither as 0 nor as 1. -/
def Obligations.OnlySetEventsDriveLevels : Prop :=
  Level.undriven.bit? = none ∧
  (∀ (s : State) (p : Pin) (v : Bool), s.lv.fits s.width = true → p.exists s.width = true →
    (s.emit (.set p v)).lv.get p = some (Level.ofBool v) ∧
    ∀ q : Pin, q ≠ p → (s.emit (.set p v)).lv.get q = s.lv.get q) ∧
  (∀ (s : State) (us : Nat), (s.emit (.sleep us)).lv = s.lv) ∧
  (∀ s t : State, step s = .next t → ∃ evs, t.trace = s.trace ++ evs ∧ t.lv = s.lv.applyAll evs)

/-- R27: emitting an event appends it to the end of TRACE, and no step, no instruction and no tick removes or reorders an
entry. -/
def Obligations.TraceOnlyGrows : Prop :=
  (∀ (s : State) (ev : Event), (s.emit ev).trace = s.trace ++ [ev]) ∧
  (∀ s t : State, step s = .next t → s.trace <+: t.trace) ∧
  (∀ s t : State, tick s = .next t → s.trace <+: t.trace) ∧
  ∀ (i : Instr) (s t : State), exec i s = .next t → s.trace <+: t.trace

/-! ## Timing -/

/-- R137: an operation's sleeps are those of its pulses, 1 and 100 µs for each, with 2000 µs after them for CLEAR and HOME
and for no other. That the extra sleep is exactly 2000 µs and stands after the transfer is D7 and D8 of R123 and R124
(log 7). -/
def Obligations.OnlyClearAndHomeSleepLonger : Prop :=
  ∀ (w : Width) (i : Instr), i ≠ .init →
    sleepsOf (eventsOf w i) =
      (List.replicate (pulseCount (eventsOf w i)) [1, 100]).flatten ++
        (if i = .clear ∨ i = .home then [2000] else [])

/-- R108, R139, R219 (derived there): events, pulses and requested sleep of every transfer, and of every operation for lists
of any length. -/
def Obligations.EventCountsAndSleepTotals : Prop :=
  (∀ b : Byte, (writeByte .eight b).length = 12 ∧ pulseCount (writeByte .eight b) = 1 ∧
    requestedSleep (writeByte .eight b) = 101 ∧ (writeByte .four b).length = 16 ∧
    pulseCount (writeByte .four b) = 2 ∧ requestedSleep (writeByte .four b) = 202) ∧
  (∀ n : Nibble, (writeNibble .eight n).length = 12 ∧ pulseCount (writeNibble .eight n) = 1 ∧
    requestedSleep (writeNibble .eight n) = 101 ∧ (writeNibble .four n).length = 8 ∧
    pulseCount (writeNibble .four n) = 1 ∧ requestedSleep (writeNibble .four n) = 101) ∧
  ∀ i : Instr, i ≠ .init → ∀ k, k = i.expand.length →
    (eventsOf .eight i).length = 13 * k + (if i = .clear ∨ i = .home then 1 else 0) ∧
    (eventsOf .four i).length = 17 * k + (if i = .clear ∨ i = .home then 1 else 0) ∧
    pulseCount (eventsOf .eight i) = k ∧ pulseCount (eventsOf .four i) = 2 * k ∧
    requestedSleep (eventsOf .eight i) = 101 * k + (if i = .clear ∨ i = .home then 2000 else 0) ∧
    requestedSleep (eventsOf .four i) = 202 * k + (if i = .clear ∨ i = .home then 2000 else 0)

/-! ## The step -/

/-- A step runs the decoded instruction. When the word decodes to `i`, the step after `withFetchWord` is `exec i` at the
settled state: `s` itself if the block is READY with nothing running, and otherwise `s` with its running operation and its
construction finished (log 3). -/
def Obligations.StepRunsTheDecodedWord : Prop :=
  ∀ (s : State) (nbits w : Nat) (i : Instr), decodeTableWord nbits w = some i →
    step (s.withFetchWord nbits w) = exec i s.settle ∧ s.settle.Idle ∧ s.settle.calls = s.calls ∧
    (s.Idle → s.settle = s)

/-- R122, R187: a READY block with nothing running takes the host's next call and runs it whole; with none pending the run
ends (R205). The order of pending calls is the model's own field (log 2). -/
def Obligations.StepRunsTheNextCall : Prop :=
  ∀ s : State, s.Idle →
    (∀ i rest, s.calls = i :: rest → step s = exec i { s with calls := rest }) ∧
    (s.calls = [] → step s = .refused .runEnded)

/-- R22, R47, D1: at the level of single events, the invocation and one tick for each event of the list compose to the step
at the level of operations, from every position and for INIT from every INIT_STEP. Where INIT_STEP stands between two events
is log 5; that one step is one operation, and INIT the moves that are left, is the model's choice (log 3). -/
def Obligations.TicksComposeToOperations : Prop :=
  (∀ (s : State) (i : Instr) (rest : List Instr), s.Idle → s.calls = i :: rest → i.hostCallable = true →
    ticks ((eventsOf s.width i).length + 1) s = step s) ∧
  (∀ (s : State) (f : InFlight), s.inFlight = some f → f.index < (eventsOf s.width f.op).length →
    ticks ((eventsOf s.width f.op).length - f.index) s = step s) ∧
  (∀ s : State, s.BetweenInitMoves →
    ticks ((initEvents s.width).length - initOffset s.width s.initStep + 1) s = exec .init s)

/-- R22, R53: one tick emits at most one event, the one at the running operation's index. -/
def Obligations.TickEmitsTheNextEvent : Prop :=
  (∀ (s : State) (f : InFlight) (ev : Event), s.inFlight = some f → (eventsOf s.width f.op)[f.index]? = some ev →
    ∃ t, tick s = .next t ∧ t.trace = s.trace ++ [ev] ∧ t.lv = s.lv.apply ev ∧ t.calls = s.calls ∧
      t.inFlight = if f.index + 1 < (eventsOf s.width f.op).length then some ⟨f.op, f.index + 1⟩ else none) ∧
  (∀ s t : State, s.inFlight = none → tick s = .next t → t.trace = s.trace ∧ t.lv = s.lv)

/-! ## The invariant of every run -/

/-- R200, R33, R192: the invariant holds when a host that met its duty starts the construction, for every W and pin_init. -/
def Obligations.CoherentAtConstruction : Prop :=
  ∀ (p : Params) (s : State), construct p = .next s → Coherent p s

/-- R47, R53, R211, R26: every step and every tick keeps it. The trace is the whole initialization, then whole operations,
then the running operation up to its position; and LV is what the trace leaves of pin_init. -/
def Obligations.CoherenceIsKept : Prop :=
  ∀ (p : Params) (s t : State), Coherent p s → (step s = .next t → Coherent p t) ∧ (tick s = .next t → Coherent p t)

/-- R206, R207 (derived there): in every coherent state the trace, with the events its running operation has still to emit,
meets the pulse-width and recovery rules. -/
def Obligations.CoherentTracesAreHazardFree : Prop :=
  ∀ (p : Params) (s : State), Coherent p s → hazardFree (s.trace ++ s.remaining) = true

/-- R209, R33: in every coherent state that is READY with nothing running, each pin that exists has been driven, R/W and E
are low, and every transfer of the trace latches driven lines only. -/
def Obligations.CoherentReadyPinsAreDriven : Prop :=
  ∀ (p : Params) (s : State), p.wellFormed = true → Coherent p s → s.Idle →
    s.lv.rw = .low ∧ s.lv.e = .low ∧ s.lv.fits s.width = true ∧
    (∀ pin : Pin, pin.exists s.width = true → ∃ v, s.lv.get pin = some (Level.ofBool v)) ∧
    ∀ x ∈ transfers s.width s.trace, x.latchWord.isSome = true

/-- R55, R72, R75, R212: on both widths, the latch view of whole operations from any levels decodes to their expansions, with
the mask and the absorption of R88 and R89. On W = 4 every transfer is one half of a pair with one RS level. -/
def Obligations.LatchViewDecodesToTheOperations : Prop :=
  ∀ (w : Width) (lv : Levels) (ops : List Instr), lv.fits w = true → (∀ i ∈ ops, i.hostCallable = true) →
    decodeEventsFrom w lv (ops.flatMap (eventsOf w)) = .ok ((ops.flatMap Instr.expand).map Instr.canonical)

/-- R166, R212: the latch view of a READY block's whole trace is the initialization's nibbles and then the words of whole
operations, which decode to their expansions. -/
def Obligations.CoherentTraceDecodes : Prop :=
  ∀ (p : Params) (s : State), Coherent p s → s.Idle →
    ∃ (ops : List Instr) (xs : List LatchWord),
      (∀ i ∈ ops, i.hostCallable = true) ∧ s.trace = initEvents s.width ++ ops.flatMap (eventsOf s.width) ∧
      latchWords (transfers s.width s.trace) = .ok (initLatchView s.width ++ xs) ∧
      decodeLatched s.width xs = .ok ((ops.flatMap Instr.expand).map Instr.canonical)

/-- R55 (derived there): in the initialization and in whole operations RS and the data lines have the same levels at the
falling edge of E as at the rising edge. -/
def Obligations.LatchDoesNotDependOnTheEdge : Prop :=
  ∀ (w : Width) (lv : Levels) (ops : List Instr),
    fallingTransfersFrom lv (ops.flatMap (eventsOf w)) = transfersFrom lv (ops.flatMap (eventsOf w))

/-- R53, R165, R187, R205: from any construction, a host's pending calls all run, in order, after the initialization, one
step for each; then the run ends. The pending calls are the model's own field (log 2), and one step for each INIT_STEP
and for each operation is the model's choice (log 3). -/
def Obligations.HostCallsAllRunInOrder : Prop :=
  ∀ (p : Params) (s : State) (ops : List Instr), construct p = .next s → (∀ i ∈ ops, i.hostCallable = true) →
    ∃ t : State, steps (5 + ops.length) { s with calls := ops } = .next t ∧
      t.Idle ∧ t.calls = [] ∧ t.trace = initEvents p.width ++ ops.flatMap (eventsOf p.width) ∧
      t.lv = p.pinInit.applyAll t.trace ∧ step t = .refused .runEnded
end

