-- ==== Sys2Proof/Laws/State.lean ====
section
/-! SUPPORT. One lemma for each field of each update of the state, and the laws of driving a pin. -/

namespace Sys2Proof

section Levels

variable (lv : Levels) (v : Bool) (us : Nat)

@[simp] theorem Levels.apply_sleep : lv.apply (.sleep us) = lv := rfl
@[simp] theorem Levels.apply_set (p : Pin) : lv.apply (.set p v) = lv.drive p v := rfl

@[simp] theorem Levels.drive_rs_rs : (lv.drive .rs v).rs = Level.ofBool v := rfl
@[simp] theorem Levels.drive_rs_rw : (lv.drive .rs v).rw = lv.rw := rfl
@[simp] theorem Levels.drive_rs_e : (lv.drive .rs v).e = lv.e := rfl
@[simp] theorem Levels.drive_rs_data : (lv.drive .rs v).data = lv.data := rfl

@[simp] theorem Levels.drive_rw_rs : (lv.drive .rw v).rs = lv.rs := rfl
@[simp] theorem Levels.drive_rw_rw : (lv.drive .rw v).rw = Level.ofBool v := rfl
@[simp] theorem Levels.drive_rw_e : (lv.drive .rw v).e = lv.e := rfl
@[simp] theorem Levels.drive_rw_data : (lv.drive .rw v).data = lv.data := rfl

@[simp] theorem Levels.drive_e_rs : (lv.drive .e v).rs = lv.rs := rfl
@[simp] theorem Levels.drive_e_rw : (lv.drive .e v).rw = lv.rw := rfl
@[simp] theorem Levels.drive_e_e : (lv.drive .e v).e = Level.ofBool v := rfl
@[simp] theorem Levels.drive_e_data : (lv.drive .e v).data = lv.data := rfl

@[simp] theorem Levels.drive_d_rs (k : Fin 8) : (lv.drive (.d k) v).rs = lv.rs := rfl
@[simp] theorem Levels.drive_d_rw (k : Fin 8) : (lv.drive (.d k) v).rw = lv.rw := rfl
@[simp] theorem Levels.drive_d_e (k : Fin 8) : (lv.drive (.d k) v).e = lv.e := rfl
@[simp] theorem Levels.drive_d_data (k : Fin 8) :
    (lv.drive (.d k) v).data = lv.data.set k.val (Level.ofBool v) := rfl

@[simp] theorem Levels.applyAll_nil : lv.applyAll [] = lv := rfl
@[simp] theorem Levels.applyAll_cons (ev : Event) (evs : List Event) :
    lv.applyAll (ev :: evs) = (lv.apply ev).applyAll evs := rfl

theorem Levels.applyAll_append (as bs : List Event) :
    lv.applyAll (as ++ bs) = (lv.applyAll as).applyAll bs := by
  simp [Levels.applyAll, List.foldl_append]

/-- An event never adds or removes a data line (R20). -/
@[simp] theorem Levels.apply_data_length (ev : Event) : (lv.apply ev).data.length = lv.data.length := by
  cases ev with
  | set p v => cases p <;> simp
  | sleep us => rfl

@[simp] theorem Levels.applyAll_data_length (evs : List Event) :
    (lv.applyAll evs).data.length = lv.data.length := by
  induction evs generalizing lv with
  | nil => rfl
  | cons ev evs ih => simp [ih]

/-- Events that drive no R/W pin leave its level. -/
theorem Levels.applyAll_rw (evs : List Event) (h : ∀ ev ∈ evs, ∀ v, ev ≠ .set .rw v) :
    (lv.applyAll evs).rw = lv.rw := by
  induction evs generalizing lv with
  | nil => rfl
  | cons ev evs ih =>
    rw [Levels.applyAll_cons, ih _ fun e he => h e (List.mem_cons_of_mem _ he)]
    have hev := h ev List.mem_cons_self
    cases ev with
    | set p v => cases p <;> simp_all
    | sleep us => rfl

end Levels

namespace Machine

section Emit

variable (s : State) (ev : Event) (evs : List Event)

@[simp] theorem emit_width : (s.emit ev).width = s.width := rfl
@[simp] theorem emit_phase : (s.emit ev).phase = s.phase := rfl
@[simp] theorem emit_initStep : (s.emit ev).initStep = s.initStep := rfl
@[simp] theorem emit_lv : (s.emit ev).lv = s.lv.apply ev := rfl
@[simp] theorem emit_trace : (s.emit ev).trace = s.trace ++ [ev] := rfl
@[simp] theorem emit_inFlight : (s.emit ev).inFlight = s.inFlight := rfl
@[simp] theorem emit_calls : (s.emit ev).calls = s.calls := rfl

/-- Everything that `run L` does (R9, R26, R27). -/
theorem emitAll_eq : s.emitAll evs = { s with lv := s.lv.applyAll evs, trace := s.trace ++ evs } := by
  induction evs generalizing s with
  | nil => simp [State.emitAll]
  | cons ev evs ih =>
    have hstep : s.emitAll (ev :: evs) = (s.emit ev).emitAll evs := rfl
    rw [hstep, ih]
    simp [State.emit]

@[simp] theorem emitAll_nil : s.emitAll [] = s := rfl
theorem emitAll_cons : s.emitAll (ev :: evs) = (s.emit ev).emitAll evs := rfl
theorem emitAll_append (as bs : List Event) : s.emitAll (as ++ bs) = (s.emitAll as).emitAll bs := by
  simp [State.emitAll, List.foldl_append]

@[simp] theorem emitAll_width : (s.emitAll evs).width = s.width := by rw [emitAll_eq]
@[simp] theorem emitAll_phase : (s.emitAll evs).phase = s.phase := by rw [emitAll_eq]
@[simp] theorem emitAll_initStep : (s.emitAll evs).initStep = s.initStep := by rw [emitAll_eq]
@[simp] theorem emitAll_lv : (s.emitAll evs).lv = s.lv.applyAll evs := by rw [emitAll_eq]
@[simp] theorem emitAll_trace : (s.emitAll evs).trace = s.trace ++ evs := by rw [emitAll_eq]
@[simp] theorem emitAll_inFlight : (s.emitAll evs).inFlight = s.inFlight := by rw [emitAll_eq]
@[simp] theorem emitAll_calls : (s.emitAll evs).calls = s.calls := by rw [emitAll_eq]

end Emit

section Construction

variable (p : Params)

@[simp] theorem atConstruction_width : (State.atConstruction p).width = p.width := rfl
@[simp] theorem atConstruction_phase : (State.atConstruction p).phase = .initializing := rfl
@[simp] theorem atConstruction_initStep : (State.atConstruction p).initStep = .s0 := rfl
@[simp] theorem atConstruction_lv : (State.atConstruction p).lv = p.pinInit := rfl
@[simp] theorem atConstruction_trace : (State.atConstruction p).trace = [] := rfl
@[simp] theorem atConstruction_inFlight : (State.atConstruction p).inFlight = none := rfl
@[simp] theorem atConstruction_calls : (State.atConstruction p).calls = [] := rfl

end Construction

end Machine

end Sys2Proof
end

