-- ==== Sys2Proof/Laws/Step.lean ====
section
/-! SUPPORT. What the gates, `perform`, `exec` and `step` can do, each said once. -/

namespace Sys2Proof.Machine

theorem operationGate_none_iff (s : State) : operationGate s = none ↔ s.Idle := by
  unfold operationGate State.Idle
  cases s.inFlight <;> cases s.phase <;> simp

theorem initGate_none_iff (s : State) : initGate s = none ↔ s.BetweenInitMoves := by
  unfold initGate State.BetweenInitMoves
  cases s.inFlight <;> cases s.phase <;> simp

theorem operationGate_of_running {s : State} {f : InFlight} (h : s.inFlight = some f) :
    operationGate s = some .operationInFlight := by
  simp [operationGate, h]

theorem operationGate_of_initializing {s : State} (h : s.BetweenInitMoves) :
    operationGate s = some .notReady := by
  simp [operationGate, h.1, h.2]

theorem perform_of_idle {s : State} (h : s.Idle) (evs : List Event) :
    perform evs s = .next (s.emitAll evs) := by
  simp [perform, (operationGate_none_iff s).2 h]

/-- `perform` answers a next state from an idle block only, and then it emits its whole list (R122). -/
theorem perform_next_iff (s t : State) (evs : List Event) :
    perform evs s = .next t ↔ s.Idle ∧ t = s.emitAll evs := by
  unfold perform
  cases hg : operationGate s with
  | none =>
    have hi := (operationGate_none_iff s).1 hg
    exact ⟨fun h => ⟨hi, by cases h; rfl⟩, fun h => by rw [h.2]⟩
  | some r =>
    have : ¬ s.Idle := fun h => by simp [(operationGate_none_iff s).2 h] at hg
    simp [this]

/-- Every operation of R123 to R136 performs its event list (R10). -/
theorem exec_eq_perform {i : Instr} (h : i.hostCallable = true) (s : State) :
    exec i s = perform (eventsOf s.width i) s := by
  cases i <;> first | rfl | simp [Instr.hostCallable] at h

theorem exec_of_idle {i : Instr} (h : i.hostCallable = true) {s : State} (hs : s.Idle) :
    exec i s = .next (s.emitAll (eventsOf s.width i)) := by
  rw [exec_eq_perform h, perform_of_idle hs]

theorem exec_init_of_idle {s : State} (hs : s.Idle) : exec .init s = .refused .reinitialize := by
  simp [exec, execInit, initGate, hs.1, hs.2]

theorem hostCallable_of_ne_init {i : Instr} (h : i ≠ .init) : i.hostCallable = true := by
  cases i <;> first | rfl | exact absurd rfl h

/-- What `exec` answers as a next state from an idle block: the operation's whole event list (R122). -/
theorem exec_next_of_idle {i : Instr} {s t : State} (hs : s.Idle) (h : exec i s = .next t) :
    i.hostCallable = true ∧ t = s.emitAll (eventsOf s.width i) := by
  by_cases hi : i = .init
  · rw [hi, exec_init_of_idle hs] at h
    cases h
  · have hc := hostCallable_of_ne_init hi
    rw [exec_of_idle hc hs] at h
    exact ⟨hc, by cases h; rfl⟩

theorem emits_emitAll (s : State) (evs : List Event) : Emits s (s.emitAll evs) evs := by
  constructor <;> simp

/-- Everything one step can do (R122, R160, R187). -/
theorem step_cases {s t : State} (h : step s = .next t) :
    (∃ f, s.inFlight = some f ∧ t = finishRunning f s) ∨
    (s.BetweenInitMoves ∧ t = initAdvance s) ∨
    (s.Idle ∧ ∃ i rest, s.calls = i :: rest ∧ i.hostCallable = true ∧
      t = ({ s with calls := rest } : State).emitAll (eventsOf s.width i)) := by
  unfold step at h
  split at h
  · rename_i f hf
    exact .inl ⟨f, hf, by cases h; rfl⟩
  · rename_i hf
    split at h
    · rename_i hp
      exact .inr (.inl ⟨⟨hp, hf⟩, by cases h; rfl⟩)
    · rename_i hp
      split at h
      · cases h
      · rename_i i rest hc
        obtain ⟨hi, ht⟩ := exec_next_of_idle (s := { s with calls := rest }) ⟨hp, hf⟩ h
        exact .inr (.inr ⟨⟨hp, hf⟩, i, rest, hc, hi, ht⟩)

theorem step_of_call {s : State} {i : Instr} {rest : List Instr} (hs : s.Idle) (hc : s.calls = i :: rest) :
    step s = exec i { s with calls := rest } := by
  simp [step, hs.1, hs.2, hc]

theorem step_of_initializing {s : State} (hs : s.BetweenInitMoves) : step s = .next (initAdvance s) := by
  simp [step, hs.1, hs.2]

theorem step_of_running {s : State} {f : InFlight} (hf : s.inFlight = some f) :
    step s = .next (finishRunning f s) := by
  simp [step, hf]

end Sys2Proof.Machine
end

