-- ==== Sys2Proof/Laws/Init.lean ====
section
/-! SUPPORT. What one move of the initialization does, and what running it to its end does (R160, R165). -/

namespace Sys2Proof.Machine

/-- All that the construction can do (R192, R200): a host that met its duty gets the reset values, no other host has the
move. -/
theorem construct_eq_next {p : Params} {s : State} :
    construct p = .next s ↔ p.powerOnReady = true ∧ s = State.atConstruction p := by
  unfold construct
  cases p.powerOnReady
  · simp
  · simp [@eq_comm _ s]

theorem construct_of_not_ready {p : Params} (h : p.powerOnReady = false) : construct p = .refused .powerOnNotReady := by
  simp [construct, h]

theorem construct_default : construct Params.default = .next State.reset := rfl

@[simp] theorem initAdvance_width (s : State) : (initAdvance s).width = s.width := by simp [initAdvance]
@[simp] theorem initAdvance_trace (s : State) :
    (initAdvance s).trace = s.trace ++ initAction s.width s.initStep := by simp [initAdvance]
@[simp] theorem initAdvance_lv (s : State) :
    (initAdvance s).lv = s.lv.applyAll (initAction s.width s.initStep) := by simp [initAdvance]
@[simp] theorem initAdvance_initStep (s : State) : (initAdvance s).initStep = s.initStep.succ := rfl
@[simp] theorem initAdvance_inFlight (s : State) : (initAdvance s).inFlight = s.inFlight := by simp [initAdvance]
@[simp] theorem initAdvance_calls (s : State) : (initAdvance s).calls = s.calls := by simp [initAdvance]

/-- PHASE becomes READY with DONE (R25, R165). -/
theorem initAdvance_phase (s : State) :
    (initAdvance s).phase = if s.initStep.succ = .done then .ready else s.phase := by
  simp only [initAdvance]
  cases h : s.initStep.succ <;> simp

/-- The events of the initialization from an INIT_STEP on. -/
theorem initEvents_drop (w : Width) (st : InitStep) :
    (initEvents w).drop (initOffset w st) =
      initAction w st ++ (initEvents w).drop (initOffset w st.succ) := by
  cases w <;> cases st <;> rfl

theorem initOffset_le (w : Width) (st : InitStep) : initOffset w st ≤ (initEvents w).length := by
  cases w <;> cases st <;> decide

theorem initOffset_lt {w : Width} {st : InitStep} (h : st ≠ .done) : initOffset w st < (initEvents w).length := by
  cases w <;> cases st <;> first | decide | exact absurd rfl h

theorem initEvents_take_succ (w : Width) (st : InitStep) :
    (initEvents w).take (initOffset w st) ++ initAction w st = (initEvents w).take (initOffset w st.succ) := by
  cases w <;> cases st <;> rfl

/-- All five moves: the rest of the initialization is emitted, and the block is READY (R165). -/
theorem runInit_eq (s : State) (h : s.phase = .initializing) :
    runInit s =
      { s with
        trace := s.trace ++ (initEvents s.width).drop (initOffset s.width s.initStep)
        lv := s.lv.applyAll ((initEvents s.width).drop (initOffset s.width s.initStep))
        initStep := .done
        phase := .ready } := by
  obtain ⟨w, ph, st, lv, tr, fl, cs⟩ := s
  subst h
  cases w <;> cases st <;>
    simp [runInit, initAdvance, emitAll_eq, InitStep.succ, initAction, initOffset, initEvents, Levels.applyAll,
      writeNibble, t8WriteNibble, t4WriteNibble, driveEight, driveFour, pulse]

end Sys2Proof.Machine
end

