-- ==== Sys2Proof/Laws/Events.lean ====
section
/-! SUPPORT. The position inside a running operation (R22): one lemma for each field of `locate`, and what finishing a
running operation leaves. -/

namespace Sys2Proof.Machine

section Locate

variable (op : Instr) (k : Nat) (s : State)

@[simp] theorem locate_width : (s.locate op k).width = s.width := rfl
@[simp] theorem locate_lv : (s.locate op k).lv = s.lv := rfl
@[simp] theorem locate_trace : (s.locate op k).trace = s.trace := rfl
@[simp] theorem locate_calls : (s.locate op k).calls = s.calls := rfl

theorem locate_inFlight_of_lt {op : Instr} {k : Nat} {s : State} (h : k < (eventsOf s.width op).length) :
    (s.locate op k).inFlight = some ⟨op, k⟩ := by simp [State.locate, h]

theorem locate_inFlight_of_le {op : Instr} {k : Nat} {s : State} (h : (eventsOf s.width op).length ≤ k) :
    (s.locate op k).inFlight = none := by simp [State.locate, Nat.not_lt.2 h]

theorem locate_initStep_of_callable {op : Instr} (h : op.hostCallable = true) :
    (s.locate op k).initStep = s.initStep := by
  cases op <;> first | rfl | simp [Instr.hostCallable] at h

theorem locate_phase_of_callable {op : Instr} (h : op.hostCallable = true) :
    (s.locate op k).phase = s.phase := by
  cases op <;> first | rfl | simp [Instr.hostCallable] at h

@[simp] theorem locate_init_initStep : (s.locate .init k).initStep = initStepAt s.width k := rfl

theorem locate_init_phase_of_lt {k : Nat} {s : State} (h : k < (initEvents s.width).length) :
    (s.locate .init k).phase = s.phase := by
  simp [State.locate, eventsOf, Nat.not_le.2 h]

theorem locate_init_phase_of_le {k : Nat} {s : State} (h : (initEvents s.width).length ≤ k) :
    (s.locate .init k).phase = .ready := by
  simp [State.locate, eventsOf, h]

end Locate

theorem initStepAt_end (w : Width) : initStepAt w (initEvents w).length = .done := by
  cases w <;> decide

section Finish

theorem remaining_of_running {s : State} {f : InFlight} (h : s.inFlight = some f) :
    s.remaining = (eventsOf s.width f.op).drop f.index := by
  simp [State.remaining, h]

@[simp] theorem finishRunning_width (f : InFlight) (s : State) : (finishRunning f s).width = s.width := by
  simp [finishRunning]
@[simp] theorem finishRunning_calls (f : InFlight) (s : State) : (finishRunning f s).calls = s.calls := by
  simp [finishRunning]
@[simp] theorem finishRunning_trace (f : InFlight) (s : State) :
    (finishRunning f s).trace = s.trace ++ s.remaining := by
  simp [finishRunning]
@[simp] theorem finishRunning_lv (f : InFlight) (s : State) :
    (finishRunning f s).lv = s.lv.applyAll s.remaining := by
  simp [finishRunning]
@[simp] theorem finishRunning_inFlight (f : InFlight) (s : State) : (finishRunning f s).inFlight = none := by
  simp [finishRunning, State.locate]

theorem finishRunning_phase_of_callable (f : InFlight) (s : State) (hc : f.op.hostCallable = true) :
    (finishRunning f s).phase = s.phase := by
  simp [finishRunning, locate_phase_of_callable _ _ hc]

theorem finishRunning_initStep_of_callable (f : InFlight) (s : State) (hc : f.op.hostCallable = true) :
    (finishRunning f s).initStep = s.initStep := by
  simp [finishRunning, locate_initStep_of_callable _ _ hc]

theorem finishRunning_init (f : InFlight) (s : State) (hi : f.op = .init) :
    (finishRunning f s).phase = .ready ∧ (finishRunning f s).initStep = .done := by
  constructor
  · simp only [finishRunning, hi]
    exact locate_init_phase_of_le (by simp [eventsOf])
  · simp [finishRunning, hi, eventsOf, initStepAt_end]

end Finish

end Sys2Proof.Machine
end

