-- ==== Sys2Proof/Laws/Transport.lean ====
section
/-! SUPPORT. What the transport and the two primitive sequences do to the levels, which pins they drive, and how they count
and sum (R107, R108). -/

namespace Sys2Proof

/-- The events the transport may emit on width W: sleeps, and SETs of E and of data lines that exist (R107). -/
def Event.ofTransport (w : Width) : Event → Bool
  | .set .rs _ => false
  | .set .rw _ => false
  | .set .e _ => true
  | .set (.d k) _ => decide (k.val < w.lines)
  | .sleep _ => true

/-- A byte transfer drives E and data lines that exist, and nothing else (R107). -/
theorem writeByte_ofTransport (w : Width) (b : Byte) : (writeByte w b).all (Event.ofTransport w) = true := by
  cases w <;> rfl

theorem writeNibble_ofTransport (w : Width) (n : Nibble) : (writeNibble w n).all (Event.ofTransport w) = true := by
  cases w <;> rfl

/-- The events of one CMD or DATA byte (R60): the register-select level, then the byte. -/
def sendWord (w : Width) (x : BusWord) : List Event := [.set .rs x.rs] ++ writeByte w x.byte

theorem cmdSend_eq (w : Width) (c : Byte) : cmdSend w c = sendWord w ⟨false, c⟩ := rfl
theorem dataSend_eq (w : Width) (b : Byte) : dataSend w b = sendWord w ⟨true, b⟩ := rfl

section Counts

variable (as bs : List Event)

theorem requestedSleep_append : requestedSleep (as ++ bs) = requestedSleep as + requestedSleep bs := by
  simp [requestedSleep]

theorem pulseCount_append : pulseCount (as ++ bs) = pulseCount as + pulseCount bs := List.count_append

theorem sleepsOf_append : sleepsOf (as ++ bs) = sleepsOf as ++ sleepsOf bs := by
  induction as with
  | nil => rfl
  | cons ev as ih => cases ev <;> simp [sleepsOf, ih]

end Counts

/-- The number of transfers of one byte (R75). -/
def Width.transfersPerByte : Width → Nat
  | .eight => 1
  | .four => 2

theorem length_sendWord (w : Width) (x : BusWord) :
    (sendWord w x).length = 1 + w.transfersPerByte * (w.lines + 4) := by cases w <;> rfl

theorem pulseCount_sendWord (w : Width) (x : BusWord) : pulseCount (sendWord w x) = w.transfersPerByte := by
  cases w <;>
    simp [pulseCount, sendWord, writeByte, t8WriteByte, t4WriteByte, t4WriteNibble, driveEight, driveFour, pulse,
      Width.transfersPerByte]

theorem requestedSleep_sendWord (w : Width) (x : BusWord) :
    requestedSleep (sendWord w x) = 101 * w.transfersPerByte := by
  cases w <;>
    simp [requestedSleep, sendWord, writeByte, t8WriteByte, t4WriteByte, t4WriteNibble, driveEight, driveFour, pulse,
      Width.transfersPerByte, Event.sleepUs, pulseHighUs, recoveryUs]

theorem sleepsOf_sendWord (w : Width) (x : BusWord) :
    sleepsOf (sendWord w x) = (List.replicate w.transfersPerByte [1, 100]).flatten := by
  cases w <;> rfl

/-- The extra sleep of a row (R137). -/
def Instr.settleEvents : Instr → List Event
  | .clear => [.sleep 2000]
  | .home => [.sleep 2000]
  | _ => []

/-- A row with a word sends that word and then its extra sleep. -/
theorem eventsOf_of_word {w : Width} {i : Instr} {x : BusWord} (h : encodeWord w i = some x) :
    Machine.eventsOf w i = sendWord w x ++ i.settleEvents := by
  cases i <;> simp only [encodeWord, Option.some.injEq, reduceCtorEq] at h <;> subst h <;>
    simp [Machine.eventsOf, Machine.clearEvents, Machine.homeEvents, Machine.entryEvents, Machine.displayEvents,
      Machine.shiftCursorEvents, Machine.shiftDisplayEvents, Machine.functionEvents, Machine.setCgramEvents,
      Machine.setDdramEvents, Machine.writeEvents, cmdSend_eq, dataSend_eq, Instr.settleEvents, slowCommandUs]

theorem writeSeqEvents_eq (w : Width) (bs : List Byte) :
    Machine.writeSeqEvents w bs = (bs.map Instr.write).flatMap (Machine.eventsOf w) := by
  induction bs with
  | nil => rfl
  | cons b bs ih => simpa [Machine.writeSeqEvents, Machine.eventsOf] using ih

/-- A composite's events are those of its expansion, in order (R77). -/
theorem eventsOf_expand {w : Width} {i : Instr} (h : i.hostCallable = true) :
    Machine.eventsOf w i = i.expand.flatMap (Machine.eventsOf w) := by
  cases i <;>
    simp [Instr.expand, Machine.eventsOf, Machine.glyphEvents, Machine.cursorEvents, Machine.writeAtEvents,
      writeSeqEvents_eq, Instr.hostCallable] at h ⊢

/-- Every instruction of an expansion has a word of its own. -/
theorem expand_hasWord {i j : Instr} (h : j ∈ i.expand) (w : Width) : ∃ x, encodeWord w j = some x := by
  cases i <;> simp [Instr.expand] at h <;> aesop (add simp encodeWord)

end Sys2Proof
end

