-- ==== Sys2Proof/Laws/Latch.lean ====
section
/-! SUPPORT. What one CMD or DATA byte leaves on the pins, what the controller latches of it (R55), and that the hazard
rules hold of it whatever comes after (R206, R207). -/

namespace Sys2Proof

/-- The data lines after a byte: bit k on Dk for each line of the group. On W = 4 these are the low nibble's bits. -/
def linesOf (w : Width) (b : Byte) : List Level :=
  (List.range w.lines).map fun k => Level.ofBool (b.getLsbD k)

theorem eq_four_of_fits {lv : Levels} (h : lv.fits .four = true) :
    ∃ a b c d, lv.data = [a, b, c, d] := by
  simp only [Levels.fits, Width.lines] at h
  match hd : lv.data, h with
  | [a, b, c, d], _ => exact ⟨a, b, c, d, rfl⟩

theorem eq_eight_of_fits {lv : Levels} (h : lv.fits .eight = true) :
    ∃ a b c d e f g i, lv.data = [a, b, c, d, e, f, g, i] := by
  simp only [Levels.fits, Width.lines] at h
  match hd : lv.data, h with
  | [a, b, c, d, e, f, g, i], _ => exact ⟨a, b, c, d, e, f, g, i, rfl⟩

theorem fits_applyAll {w : Width} {lv : Levels} (h : lv.fits w = true) (evs : List Event) :
    (lv.applyAll evs).fits w = true := by
  simpa [Levels.fits] using h

/-- The pins after one CMD or DATA byte. -/
theorem applyAll_sendWord {w : Width} {lv : Levels} (h : lv.fits w = true) (x : BusWord) :
    lv.applyAll (sendWord w x) = ⟨Level.ofBool x.rs, lv.rw, .low, linesOf w x.byte⟩ := by
  obtain ⟨lrs, lrw, le, ld⟩ := lv
  cases w with
  | four =>
    obtain ⟨a, b, c, d, hd⟩ := eq_four_of_fits h
    subst hd
    simp [sendWord, writeByte, t4WriteByte, t4WriteNibble, driveFour, pulse, Levels.applyAll, Levels.apply,
      Levels.drive, linesOf, Width.lines, List.range, List.range.loop, lowNibble, Level.ofBool]
  | eight =>
    obtain ⟨a, b, c, d, e, f, g, i, hd⟩ := eq_eight_of_fits h
    subst hd
    simp [sendWord, writeByte, t8WriteByte, driveEight, pulse, Levels.applyAll, Levels.apply,
      Levels.drive, linesOf, Width.lines, List.range, List.range.loop, Level.ofBool]

/-- What the controller latches of one byte (R55, R75): a byte on W = 8, two nibbles on W = 4. -/
def wordLatches (w : Width) (x : BusWord) : List LatchWord :=
  match w with
  | .eight => [⟨x.rs, x.byte.toNat⟩]
  | .four => [⟨x.rs, (highNibble x.byte).toNat⟩, ⟨x.rs, (lowNibble x.byte).toNat⟩]

/-- The transfers of one byte. -/
def wordTransfers (w : Width) (x : BusWord) : List Transfer :=
  match w with
  | .eight => [⟨Level.ofBool x.rs, linesOf .eight x.byte⟩]
  | .four => [⟨Level.ofBool x.rs, linesOf .four ((highNibble x.byte).setWidth 8)⟩,
      ⟨Level.ofBool x.rs, linesOf .four x.byte⟩]

theorem transfersFrom_sendWord {w : Width} {lv : Levels} (h : lv.fits w = true) (x : BusWord) (rest : List Event) :
    transfersFrom lv (sendWord w x ++ rest) =
      wordTransfers w x ++ transfersFrom (lv.applyAll (sendWord w x)) rest := by
  obtain ⟨lrs, lrw, le, ld⟩ := lv
  cases w with
  | four =>
    obtain ⟨a, b, c, d, hd⟩ := eq_four_of_fits h
    subst hd
    simp [sendWord, writeByte, t4WriteByte, t4WriteNibble, driveFour, pulse, transfersFrom, wordTransfers,
      Levels.transfer, Levels.applyAll, Levels.apply, Levels.drive, linesOf, Width.lines, List.range,
      List.range.loop, highNibble, lowNibble, recoveryUs, pulseHighUs]
  | eight =>
    obtain ⟨a, b, c, d, e, f, g, i, hd⟩ := eq_eight_of_fits h
    subst hd
    simp [sendWord, writeByte, t8WriteByte, driveEight, pulse, transfersFrom, wordTransfers,
      Levels.transfer, Levels.applyAll, Levels.apply, Levels.drive, linesOf, Width.lines, List.range,
      List.range.loop, recoveryUs, pulseHighUs]

/-- A driven level reads back as the bit that drove it (R26). -/
@[simp] theorem bit?_ofBool (v : Bool) : (Level.ofBool v).bit? = some v := by cases v <;> rfl

@[simp] theorem transfersFrom_sleep (lv : Levels) (us : Nat) (rest : List Event) :
    transfersFrom lv (.sleep us :: rest) = transfersFrom lv rest := by
  simp [transfersFrom, pulse]

/-- The settle events of a row latch nothing. -/
theorem transfersFrom_settle (lv : Levels) (i : Instr) (rest : List Event) :
    transfersFrom lv (i.settleEvents ++ rest) = transfersFrom lv rest := by
  cases i <;> simp [Instr.settleEvents]

@[simp] theorem applyAll_settle (lv : Levels) (i : Instr) : lv.applyAll i.settleEvents = lv := by
  cases i <;> rfl

/-- The hazard rules hold of a concatenation if they hold of its parts: each waits for its own part only. -/
theorem hazardFree_append {as bs : List Event} (ha : hazardFree as = true) (hb : hazardFree bs = true) :
    hazardFree (as ++ bs) = true := by
  induction as with
  | nil => exact hb
  | cons ev as ih =>
    simp only [hazardFree, List.cons_append, Bool.and_eq_true] at ha ⊢
    refine ⟨?_, ih ha.2⟩
    have h1 := ha.1
    split at h1
    · match as, h1 with
      | [_], h1 => simp at h1
      | _ :: _ :: _, h1 => simpa using h1
    · match as, h1 with
      | _ :: _, h1 => simpa using h1
    · rfl

theorem hazardFree_sendWord (w : Width) (x : BusWord) : hazardFree (sendWord w x) = true := by
  cases w <;> rfl

theorem hazardFree_settle (i : Instr) : hazardFree i.settleEvents = true := by
  cases i <;> rfl

end Sys2Proof
end

