-- ==== Sys2Proof/Laws/PerInstr.lean ====
section
/-! SUPPORT. Statements made for each instruction as syntax. Family `Expansion`: an expansion (R77) consists of rows with a
word of their own, in the order in which `encode` puts their words. -/

namespace Sys2Proof.Laws.Expansion

/-- On either width, `encode` gives one word for each row of the expansion. -/
def Statement (i : Instr) : Prop := ∀ w : Width, (encode w i).map some = i.expand.map (encodeWord w)

theorem encode_writes (w : Width) (bs : List Byte) :
    ((bs.map Instr.write).filterMap (encodeWord w)).map some = (bs.map Instr.write).map (encodeWord w) := by
  induction bs with
  | nil => rfl
  | cons b bs ih => simpa [encodeWord] using ih

theorem clear : Statement .clear := fun _ => rfl
theorem home : Statement .home := fun _ => rfl
theorem entry (dir : EntryDir) (shift : Bool) : Statement (.entry dir shift) := fun _ => rfl
theorem display (d c b : Bool) : Statement (.display d c b) := fun _ => rfl
theorem shiftCursor (dir : ShiftDir) : Statement (.shiftCursor dir) := fun _ => rfl
theorem shiftDisplay (dir : ShiftDir) : Statement (.shiftDisplay dir) := fun _ => rfl
theorem function (lines : LineCount) (grid : CharGrid) : Statement (.function lines grid) := fun _ => rfl
theorem setCgram (a : Byte) : Statement (.setCgram a) := fun _ => rfl
theorem setDdram (a : Byte) : Statement (.setDdram a) := fun _ => rfl
theorem write (b : Byte) : Statement (.write b) := fun _ => rfl
theorem writeSeq (bs : List Byte) : Statement (.writeSeq bs) := fun w => encode_writes w bs
theorem glyph (id : Byte) (rows : List Byte) : Statement (.glyph id rows) := fun w =>
  congrArg (some (⟨false, encCgram (glyphAddress id)⟩ : BusWord) :: ·) (encode_writes w rows)
theorem cursor (row col : Byte) : Statement (.cursor row col) := fun _ => rfl
theorem writeAt (row col : Byte) (bs : List Byte) : Statement (.writeAt row col bs) := fun w =>
  congrArg (some (⟨false, encDdram (cursorAddress row col)⟩ : BusWord) :: ·) (encode_writes w bs)
theorem init : Statement .init := fun _ => rfl

end Sys2Proof.Laws.Expansion
end

