-- ==== Sys2Proof/Tests/Slice0.lean ====
section
/-! SUPPORT. The model's own tests: the refusals of the checks in WellFormed.lean, words and event lists written out from the
spec, one step on small states, and a witness for the hypotheses of each statement. Expected values are from
95_test_vectors.md (L1, L2) or from the layouts of 30_encoding.md. -/

namespace Sys2Proof.Tests

open Sys2Proof Sys2Proof.Machine

/-! ## The checks refuse ill-formed terms -/

theorem test_hasWord_refuses_composite : Instr.hasWord (.writeSeq [0x48]) = false := by decide
theorem test_operandsFit_refuses_cgram_0x40 : Instr.operandsFit (.setCgram 0x40) = false := by decide
theorem test_operandsFit_refuses_ddram_0x80 : Instr.operandsFit (.setDdram 0x80) = false := by decide
theorem test_wellFormed_refuses_init : Instr.wellFormed .init = false := by decide
theorem test_hostCallable_refuses_init : Instr.hostCallable .init = false := by decide
theorem test_pin_d4_absent_on_four_lines : Pin.exists .four (.d 4) = false := by decide
theorem test_event_refuses_absent_line : Event.wellFormed .four (.set (.d 7) true) = false := by decide
theorem test_levels_refuse_wrong_count : Levels.fits .eight (Levels.allUndriven .four) = false := by decide
theorem test_params_refuse_wrong_count :
    Params.wellFormed ⟨.four, Levels.allUndriven .eight, .noOp, true⟩ = false := by decide
theorem test_params_refuse_unmet_power_on_wait :
    Params.wellFormed ⟨.four, Levels.allUndriven .four, .noOp, false⟩ = false := by decide

/-! ## Words written out bit by bit from R62 to R69 -/

theorem test_decode_clear : decodeTableWord 16 0b000000001 = some .clear := by decide
theorem test_decode_home : decodeTableWord 16 0b000000010 = some .home := by decide
theorem test_decode_entry : decodeTableWord 16 0b000000110 = some (.entry .increment false) := by decide
theorem test_decode_display : decodeTableWord 16 0b000001010 = some (.display false true false) := by decide
theorem test_decode_shiftCursor : decodeTableWord 16 0b000010000 = some (.shiftCursor .left) := by decide
theorem test_decode_shiftDisplay : decodeTableWord 16 0b000011100 = some (.shiftDisplay .right) := by decide
theorem test_decode_function_dl0 : decodeTableWord 16 0b000100100 = some (.function .one .grid5x11) := by decide
theorem test_decode_function_dl1 : decodeTableWord 16 0b000111000 = some (.function .two .grid5x8) := by decide
theorem test_decode_setCgram : decodeTableWord 16 0b001001000 = some (.setCgram 0x08) := by decide
theorem test_decode_setDdram : decodeTableWord 16 0b011100111 = some (.setDdram 0x67) := by decide
theorem test_decode_write : decodeTableWord 16 0b100000000 = some (.write 0x00) := by decide
theorem test_decode_rejects_ten_bits : decodeTableWord 16 0b1000000001 = none := by decide
theorem test_decode_rejects_no_opcode : decodeWord .four ⟨false, 0x00⟩ = .error .noOpcodeBit := by rfl
theorem test_decode_rejects_home_bit : decodeWord .eight ⟨false, 0x03⟩ = .error .homeSpareBit := by rfl
theorem test_decode_rejects_shift_bits : decodeWord .eight ⟨false, 0x1F⟩ = .error .shiftSpareBits := by rfl
theorem test_decode_rejects_function_bits : decodeWord .eight ⟨false, 0x31⟩ = .error .functionSpareBits := by rfl
theorem test_decode_rejects_other_width : decodeWord .eight ⟨false, 0x28⟩ = .error .functionBusWidth := by rfl
theorem test_latch_rejects_half_byte : decodeLatched .four [⟨false, 0x2⟩] = .error .unpairedNibble := by rfl
theorem test_latch_rejects_split_rs :
    decodeLatched .four [⟨false, 0x2⟩, ⟨true, 0x8⟩] = .error .registerSelectSplit := by rfl
theorem test_latch_rejects_undriven :
    decodeEventsFrom .four (Levels.allUndriven .four) pulse = .error .undrivenLine := by rfl
/-- L2-11: `0:0x1, 0:0xC` is SHIFT_DISPLAY(Right) on W = 4. -/
theorem test_latch_pairs_nibbles :
    decodeLatched .four [⟨false, 0x1⟩, ⟨false, 0xC⟩] = .ok [.shiftDisplay .right] := by rfl

/-! ## Small states -/

/-- A READY block with every pin low and nothing in its trace. -/
def ready (w : Width) (calls : List Instr := []) : State :=
  ⟨w, .ready, .done, ⟨.low, .low, .low, List.replicate w.lines .low⟩, [], none, calls⟩

/-- A block between two moves of its initialization. -/
def between (w : Width) (st : InitStep) : State :=
  ⟨w, .initializing, st, Levels.allUndriven w, [], none, [.clear]⟩

/-- A READY block with an operation under way. -/
def running (w : Width) (f : InFlight) : State := { ready w with inFlight := some f }

/-- What a step answers as a next state, if it answers one. -/
def next? (o : Host.Outcome State Fault Refusal) : Option State :=
  match o with
  | .next t => some t
  | .fault _ => none
  | .refused _ => none

/-- The latch view of what an instruction emits from `ready w`. -/
def latched (w : Width) (i : Instr) : Option (Except DecodeReject (List LatchWord)) :=
  (next? (exec i (ready w))).map fun t => latchWords (transfersFrom (ready w).lv t.trace)

def p4 : Params := ⟨.four, Levels.allUndriven .four, .noOp, true⟩
def p8 : Params := ⟨.eight, Levels.allUndriven .eight, .real, true⟩

/-! ## Event lists of 95_test_vectors.md -/

/-- L1-8. -/
theorem test_eight_line_byte_0xA5 : writeByte .eight 0xA5 =
    [.set (.d 0) true, .set (.d 1) false, .set (.d 2) true, .set (.d 3) false, .set (.d 4) false, .set (.d 5) true,
      .set (.d 6) false, .set (.d 7) true, .set .e true, .sleep 1, .set .e false, .sleep 100] := by decide

/-- L1-9. -/
theorem test_four_line_byte_0xA5 : writeByte .four 0xA5 =
    [.set (.d 0) false, .set (.d 1) true, .set (.d 2) false, .set (.d 3) true,
      .set .e true, .sleep 1, .set .e false, .sleep 100,
      .set (.d 0) true, .set (.d 1) false, .set (.d 2) true, .set (.d 3) false,
      .set .e true, .sleep 1, .set .e false, .sleep 100] := by decide

/-- L2-10: CLEAR on W = 4. -/
theorem test_clear_four : eventsOf .four .clear =
    [.set .rs false,
      .set (.d 0) false, .set (.d 1) false, .set (.d 2) false, .set (.d 3) false,
      .set .e true, .sleep 1, .set .e false, .sleep 100,
      .set (.d 0) true, .set (.d 1) false, .set (.d 2) false, .set (.d 3) false,
      .set .e true, .sleep 1, .set .e false, .sleep 100, .sleep 2000] := by decide

/-- L2-10: HOME on W = 8. -/
theorem test_home_eight : latched .eight .home = some (.ok [⟨false, 0x02⟩]) ∧
    (eventsOf .eight .home).getLast? = some (.sleep 2000) := by exact ⟨rfl, rfl⟩

/-- L2-11. -/
theorem test_entry : latched .four (.entry .increment false) = some (.ok [⟨false, 0x0⟩, ⟨false, 0x6⟩]) := by rfl
theorem test_display : latched .eight (.display true false false) = some (.ok [⟨false, 0x0C⟩]) := by rfl
theorem test_shiftDisplay : latched .four (.shiftDisplay .right) = some (.ok [⟨false, 0x1⟩, ⟨false, 0xC⟩]) := by rfl
theorem test_shiftCursor : latched .eight (.shiftCursor .left) = some (.ok [⟨false, 0x10⟩]) := by rfl
theorem test_function_four : latched .four (.function .two .grid5x8) = some (.ok [⟨false, 0x2⟩, ⟨false, 0x8⟩]) := by rfl
theorem test_function_eight : latched .eight (.function .two .grid5x8) = some (.ok [⟨false, 0x38⟩]) := by rfl
theorem test_setCgram : latched .eight (.setCgram 0xFF) = some (.ok [⟨false, 0x7F⟩]) := by rfl
theorem test_setDdram : latched .four (.setDdram 0x00) = some (.ok [⟨false, 0x8⟩, ⟨false, 0x0⟩]) := by rfl
theorem test_write : latched .four (.write 0xFF) = some (.ok [⟨true, 0xF⟩, ⟨true, 0xF⟩]) := by rfl

/-- L2-12. -/
theorem test_writeSeq : latched .eight (.writeSeq [0x48, 0x69]) = some (.ok [⟨true, 0x48⟩, ⟨true, 0x69⟩]) ∧
    (eventsOf .four (.writeSeq [0x48, 0x69])).count (.set .rs true) = 2 := by exact ⟨rfl, by decide⟩
theorem test_writeSeq_empty : exec (.writeSeq []) (ready .four) = .next (ready .four) := by rfl

/-- L2-13. -/
theorem test_glyph : latched .four (.glyph 2 [0x1F]) =
    some (.ok [⟨false, 0x5⟩, ⟨false, 0x0⟩, ⟨true, 0x1⟩, ⟨true, 0xF⟩]) := by rfl
theorem test_glyph_wraps : latched .eight (.glyph 255 []) = some (.ok [⟨false, 0x78⟩]) := by rfl

/-- L2-14. -/
theorem test_cursor_wraps : latched .eight (.cursor 255 255) = some (.ok [⟨false, 0xBF⟩]) := by rfl
theorem test_cursor_row_two_aliases : latched .eight (.cursor 2 3) = some (.ok [⟨false, 0x83⟩]) := by rfl

/-- L1-12. -/
theorem test_writeAt : latched .eight (.writeAt 1 5 [0x41]) = some (.ok [⟨false, 0xC5⟩, ⟨true, 0x41⟩]) := by rfl

/-- L1-10, L2-15. -/
theorem test_init_four : (next? (exec .init (State.atConstruction p4))).map
    (fun t => (latchWords (transfers .four t.trace), t.trace.length, requestedSleep t.trace)) =
      some (.ok [⟨false, 0x3⟩, ⟨false, 0x3⟩, ⟨false, 0x2⟩], 26, 303) := by rfl

/-- L1-11, L2-15. -/
theorem test_init_eight : (next? (exec .init (State.atConstruction p8))).map
    (fun t => (latchWords (transfers .eight t.trace), t.trace.length, requestedSleep t.trace)) =
      some (.ok [⟨false, 0x30⟩, ⟨false, 0x30⟩], 26, 202) := by rfl

/-! ## One step -/

/-- R192: no construction for a host that has not met the power-on wait. -/
theorem test_construct_refuses_unmet_power_on_wait :
    construct ⟨.eight, Levels.allUndriven .eight, .real, false⟩ = .refused .powerOnNotReady := by rfl

theorem test_word_runs_first_after_reset :
    step (State.reset.withFetchWord 16 0x141) = exec (.write 0x41) (runInit State.reset) := by rfl
theorem test_unknown_word_runs_nothing : step (State.reset.withFetchWord 16 0x003) = .refused .runEnded := by rfl
theorem test_operation_before_ready_refused : exec .clear State.reset = .refused .notReady := by rfl
theorem test_operation_while_running_refused :
    exec .home (running .four ⟨.clear, 3⟩) = .refused .operationInFlight := by rfl
theorem test_second_init_refused : exec .init (ready .eight) = .refused .reinitialize := by rfl
theorem test_run_ends : step (ready .eight) = .refused .runEnded := by rfl
theorem test_s3_emits_nothing_on_eight :
    (next? (step (between .eight .s3))).map (fun t => (t.trace, t.initStep)) = some ([], .s4) := by rfl
theorem test_tick_emits_one_event :
    (next? (tick (running .eight ⟨.clear, 13⟩))).map (fun t => (t.trace, t.inFlight)) =
      some ([.sleep 2000], none) := by rfl

/-! ## Witnesses for the hypotheses of the statements -/

/-- Operations, frames and the step: an idle block on either width, with every line driven. -/
theorem witness_idle (w : Width) : (ready w).Idle ∧ (ready w).lv.fits w = true := by cases w <;> decide

/-- StepRunsTheNextCall, TicksComposeToOperations: a pending call, and none. -/
theorem witness_calls : (ready .four [.clear, .home]).Idle ∧ (ready .four [.clear, .home]).calls = [.clear, .home] ∧
    Instr.hostCallable .clear = true ∧ (ready .four).calls = [] := by decide

/-- The statements over the moves of the initialization: every INIT_STEP on either width. -/
theorem witness_between (w : Width) (st : InitStep) :
    (between w st).BetweenInitMoves ∧ (between w st).initStep = st ∧ (between w st).width = w := ⟨⟨rfl, rfl⟩, rfl, rfl⟩

/-- The statements over a construction: the host has met its duty, or has not. -/
theorem witness_construct : construct p4 = .next (State.atConstruction p4) ∧ p4.powerOnReady = true ∧
    Params.powerOnReady ⟨.four, Levels.allUndriven .four, .noOp, false⟩ = false := ⟨rfl, rfl, rfl⟩

/-- HostCallsAllRunInOrder: a construction and calls that the host can make. -/
theorem witness_construct_with_calls : construct p8 = .next (State.atConstruction p8) ∧
    ∀ i ∈ [Instr.clear, .glyph 1 [0x1F]], i.hostCallable = true := ⟨rfl, by decide⟩

/-- The statements over well-formed parameters, for each W. -/
theorem witness_params : p4.wellFormed = true ∧ p4.width = .four ∧ p8.wellFormed = true ∧ p8.width = .eight := by decide

/-- OneOperationAtATime, TicksComposeToOperations, TickEmitsTheNextEvent: an operation before its last event. -/
theorem witness_running : (running .four ⟨.clear, 17⟩).inFlight = some ⟨.clear, 17⟩ ∧
    17 < (eventsOf .four .clear).length ∧ (eventsOf .four .clear)[17]? = some (.sleep 2000) := by decide

/-- PhaseGatesEveryOperation, NoReinitialization, WidthNeverChanges, TraceOnlyGrows, OnlySetEventsDriveLevels: an idle block
whose step answers a next state. -/
theorem witness_step_of_ready : ∃ t, (ready .eight [.write 0x41]).phase = .ready ∧ (Instr.write 0x41) ≠ .init ∧
    step (ready .eight [.write 0x41]) = .next t := ⟨_, rfl, by decide, rfl⟩

/-- OperationsRunWholeExactlyWhenIdle, TickEmitsTheNextEvent: an initializing block whose step and tick answer a next state. -/
theorem witness_step_of_initializing : ∃ t u, (between .eight .s3).phase = .initializing ∧
    (between .eight .s3).inFlight = none ∧ step (between .eight .s3) = .next t ∧ tick (between .eight .s3) = .next u :=
  ⟨_, _, rfl, rfl, rfl, rfl⟩

/-- DoneExactlyWhenReady: a step from a state that meets it, in each phase. -/
theorem witness_done_iff_ready : ∃ t u,
    ((between .four .s4).initStep = .done ↔ (between .four .s4).phase = .ready) ∧ step (between .four .s4) = .next t ∧
    ((ready .four [.home]).initStep = .done ↔ (ready .four [.home]).phase = .ready) ∧
    step (ready .four [.home]) = .next u := ⟨_, _, by decide, rfl, by decide, rfl⟩

/-- OperationsChangeOnlyPinsAndTrace, EventsDependOnlyOnWAndOperands: one instruction run in two states of one width. -/
theorem witness_two_states : ∃ t u, (ready .four).width = (ready .four [.clear]).width ∧
    exec (.glyph 1 [0x0A]) (ready .four) = .next t ∧ exec (.glyph 1 [0x0A]) (ready .four [.clear]) = .next u :=
  ⟨_, _, rfl, rfl, rfl⟩

/-- OperationsLeaveTheirLastWordOnThePins: an operation with a last word, and one with none. -/
theorem witness_last_word : (∃ t, exec (.writeAt 1 5 [0x41]) (ready .four) = .next t) ∧
    (encode .four (.writeAt 1 5 [0x41])).getLast? = some ⟨true, 0x41⟩ ∧ encode .four (.writeSeq []) = [] := by
  exact ⟨⟨_, rfl⟩, by decide, by decide⟩

/-- ByteBitsOnEightLines, LatchViewDecodesToTheOperations: levels that fit, here all undriven. -/
theorem witness_levels (w : Width) : (Levels.allUndriven w).fits w = true ∧
    ∀ i ∈ [Instr.setDdram 0x80, .writeSeq [], .clear], i.hostCallable = true := by cases w <;> decide

/-- TransportDrivesOnlyEnableAndData, OnlySetEventsDriveLevels: events of a transfer, and a last line that exists. -/
theorem witness_transport_event : Event.sleep 100 ∈ writeByte .four 0x00 ∧
    Event.set (.d 7) false ∈ writeNibble .eight 0x3 ∧ Pin.exists .eight (.d 7) = true ∧ Pin.d 6 ≠ Pin.d 7 := by decide

/-- OpcodeIsHighestBit, EncoderIsInjective, OpcodeRowsAreDisjoint: two instructions with one word. -/
theorem witness_one_word : encodeWord .four (.setCgram 0x3F) = some ⟨false, 0x7F⟩ ∧
    encodeWord .four (.setCgram 0xFF) = some ⟨false, 0x7F⟩ ∧ Instr.opcode (.setCgram 0xFF) = some 0x40 := by decide

/-- NeverSentBytesAreNeverSent, DecoderAcceptsExactlyTheSentWords: both sides of the ends of R73's ranges. -/
theorem witness_never_sent : neverSent .four 0x10 = false ∧ neverSent .four 0x11 = true ∧
    neverSent .four 0x1F = true ∧ neverSent .four 0x20 = false ∧ neverSent .eight 0x20 = true ∧
    neverSent .four 0x3F = true ∧ neverSent .four 0x40 = false ∧ neverSent .four 0x3C = true ∧
    neverSent .eight 0x3C = false ∧ (⟨false, 0x40⟩ : BusWord) ∈ encode .four (.glyph 32 [0x1F]) := by decide

/-- DecodeOfEncodeIsTheInstruction: the largest addresses a word carries. -/
theorem witness_well_formed : Instr.wellFormed (.setCgram 0x3F) = true ∧ Instr.wellFormed (.setDdram 0x7F) = true ∧
    Instr.wellFormed (.write 0xFF) = true ∧ decodeWord .eight ⟨false, 0xFF⟩ = .ok (.setDdram 0x7F) := by
  exact ⟨by decide, by decide, by decide, rfl⟩

/-- StepRunsTheDecodedWord: a word that decodes. -/
theorem witness_decoded_word : decodeTableWord 9 0x0C5 = some (.setDdram 0x45) := by decide

/-- OnlyClearAndHomeSleepLonger, EventCountsAndSleepTotals, ReadWriteDrivenLowExactlyOnce: both kinds of operation, and an
INIT_STEP other than S4. -/
theorem witness_other_than_init : Instr.clear ≠ .init ∧ Instr.writeSeq [0x00] ≠ .init ∧
    (Instr.writeSeq [0x00]).expand.length = 1 ∧ InitStep.s3 ≠ .s4 := by decide

/-- FiveMovesAreInit: the last number of moves before READY. -/
theorem witness_moves : 4 < 5 := by decide

/-- The statements over coherent states: one INITIALIZING. -/
theorem witness_coherent_initializing :
    Coherent p4 (State.atConstruction p4) ∧ (State.atConstruction p4).phase = .initializing :=
  ⟨⟨rfl, rfl, rfl, by simp [TraceShape, initOffset]⟩, rfl⟩

/-- The statements over coherent states: one READY with nothing running, with a next state for CoherenceIsKept. -/
theorem witness_coherent_ready : Coherent p8 (runInit (State.atConstruction p8)) ∧
    (runInit (State.atConstruction p8)).Idle ∧
    ∃ t u, step (State.atConstruction p8) = .next t ∧ tick (State.atConstruction p8) = .next u := by
  refine ⟨⟨rfl, rfl, rfl, ?_⟩, ⟨rfl, rfl⟩, ⟨_, _, rfl, rfl⟩⟩
  exact ⟨rfl, [], by simp, rfl⟩

end Sys2Proof.Tests
end

section
/-! What a driven pin reads, what `exec` and `tick` can do, each said once, and the statements of 10_state.md settled. -/

namespace Sys2Proof

/-- The pin that is driven reads the level driven, when the pin group has it (R26). -/
theorem Levels.get_drive_same {w : Width} {lv : Levels} {p : Pin} (hlv : lv.fits w = true) (hp : p.exists w = true)
    (v : Bool) : (lv.drive p v).get p = some (Level.ofBool v) := by
  cases p with
  | rs | rw | e => rfl
  | d k =>
    have hlen : lv.data.length = w.lines := of_decide_eq_true hlv
    have hk : k.val < w.lines := of_decide_eq_true hp
    simp [Levels.get, hlen, hk]

/-- Driving a pin "changes no other part of LV" (R26). -/
theorem Levels.get_drive_ne (lv : Levels) {p q : Pin} (hqp : q ≠ p) (v : Bool) :
    (lv.drive p v).get q = lv.get q := by
  cases p with
  | rs | rw | e => cases q <;> simp [Levels.get] at hqp ⊢
  | d k =>
    cases q with
    | rs | rw | e => rfl
    | d j =>
      have hkj : k.val ≠ j.val := fun h => hqp (congrArg Pin.d (Fin.ext h.symm))
      simp [Levels.get, List.getElem?_set_ne hkj]

namespace Machine

/-- Everything one instruction can do: an operation of R123 to R136 emits its whole list, and INIT runs the initialization
to its end. -/
theorem exec_cases {i : Instr} {s t : State} (h : exec i s = .next t) :
    (s.Idle ∧ i.hostCallable = true ∧ t = s.emitAll (eventsOf s.width i)) ∨
    (s.BetweenInitMoves ∧ i = .init ∧ t = runInit s) := by
  by_cases hi : i = .init
  · subst hi
    simp only [exec, execInit] at h
    split at h
    · cases h
    · next hg => exact .inr ⟨(initGate_none_iff s).1 hg, rfl, by cases h; rfl⟩
  · have hc := hostCallable_of_ne_init hi
    rw [exec_eq_perform hc, perform_next_iff] at h
    exact .inl ⟨h.1, hc, h.2⟩

/-- The host's invocation is taken for every instruction but INIT, and it emits nothing (R22, R192). -/
theorem invoke_next_iff {i : Instr} {s t : State} :
    invoke i s = .next t ↔ i.hostCallable = true ∧ t = s.locate i 0 := by
  cases i <;> simp [invoke, Instr.hostCallable, eq_comm]

/-- Everything one tick can do (R22, D1): the running operation's next event, the initialization taken up, or the host's
next invocation. -/
theorem tick_cases {s t : State} (h : tick s = .next t) :
    (∃ f, s.inFlight = some f ∧ t = tickEvent f s) ∨
    (s.BetweenInitMoves ∧ t = s.locate .init (initOffset s.width s.initStep)) ∨
    (s.Idle ∧ ∃ i rest, s.calls = i :: rest ∧ i.hostCallable = true ∧
      t = ({ s with calls := rest } : State).locate i 0) := by
  unfold tick at h
  split at h
  · next f hf => exact .inl ⟨f, hf, by cases h; rfl⟩
  · next hf =>
    split at h
    · next hp => exact .inr (.inl ⟨⟨hp, hf⟩, by cases h; rfl⟩)
    · next hp =>
      split at h
      · cases h
      · next i rest hcalls =>
        obtain ⟨hi, ht⟩ := invoke_next_iff.1 h
        exact .inr (.inr ⟨⟨hp, hf⟩, i, rest, hcalls, hi, ht⟩)

/-- A tick of a running operation appends the event at its position, if there is one. -/
@[simp] theorem tickEvent_trace (f : InFlight) (s : State) :
    (tickEvent f s).trace = s.trace ++ (eventsOf s.width f.op)[f.index]?.toList := by
  unfold tickEvent
  split <;> next hev => simp [hev]

/-- A step appends events to TRACE and changes LV by exactly those events (R26, R27). -/
theorem step_appends_events {s t : State} (h : step s = .next t) :
    ∃ evs, t.trace = s.trace ++ evs ∧ t.lv = s.lv.applyAll evs := by
  obtain ⟨f, -, rfl⟩ | ⟨-, rfl⟩ | ⟨-, i, rest, -, -, rfl⟩ := step_cases h
  · exact ⟨s.remaining, finishRunning_trace f s, finishRunning_lv f s⟩
  · exact ⟨initAction s.width s.initStep, initAdvance_trace s, initAdvance_lv s⟩
  · exact ⟨eventsOf s.width i, emitAll_trace _ _, emitAll_lv _ _⟩

/-- TRACE before a tick is a prefix of TRACE after it (R27). -/
theorem tick_trace_prefix {s t : State} (h : tick s = .next t) : s.trace <+: t.trace := by
  obtain ⟨f, -, rfl⟩ | ⟨-, rfl⟩ | ⟨-, i, rest, -, -, rfl⟩ := tick_cases h
  · rw [tickEvent_trace]
    exact List.prefix_append _ _
  · exact List.prefix_rfl
  · exact List.prefix_rfl

/-- TRACE before an instruction is a prefix of TRACE after it (R27). -/
theorem exec_trace_prefix {i : Instr} {s t : State} (h : exec i s = .next t) : s.trace <+: t.trace := by
  obtain ⟨-, -, rfl⟩ | ⟨⟨hphase, -⟩, -, rfl⟩ := exec_cases h
  · rw [emitAll_trace]
    exact List.prefix_append _ _
  · rw [runInit_eq s hphase]
    exact List.prefix_append _ _

/-- One move of the initialization reaches DONE exactly when it reaches READY (R25). -/
theorem initAdvance_done_iff_ready {s : State} (h : s.phase = .initializing) :
    (initAdvance s).initStep = .done ↔ (initAdvance s).phase = .ready := by
  rw [initAdvance_initStep, initAdvance_phase, h]
  by_cases hdone : s.initStep.succ = .done <;> simp [hdone]

/-- Finishing the running operation keeps "DONE exactly when READY" (R25): INIT ends with both, and no other operation
changes either. -/
theorem finishRunning_keeps_done_iff_ready (f : InFlight) {s : State} (hs : s.initStep = .done ↔ s.phase = .ready) :
    (finishRunning f s).initStep = .done ↔ (finishRunning f s).phase = .ready := by
  by_cases hop : f.op = .init
  · obtain ⟨hphase, hstep⟩ := finishRunning_init f s hop
    simp [hphase, hstep]
  · have hc := hostCallable_of_ne_init hop
    rwa [finishRunning_initStep_of_callable f s hc, finishRunning_phase_of_callable f s hc]

/-- Every step keeps "DONE exactly when READY" (R25). -/
theorem step_keeps_done_iff_ready {s t : State} (hs : s.initStep = .done ↔ s.phase = .ready) (h : step s = .next t) :
    t.initStep = .done ↔ t.phase = .ready := by
  obtain ⟨f, -, rfl⟩ | ⟨⟨hphase, -⟩, rfl⟩ | ⟨-, i, rest, -, -, rfl⟩ := step_cases h
  · exact finishRunning_keeps_done_iff_ready f hs
  · exact initAdvance_done_iff_ready hphase
  · rwa [emitAll_initStep, emitAll_phase]

/-- Settles O13: INIT_STEP is S0 and PHASE is INITIALIZING at construction, and each of the three kinds of step keeps the
equivalence. -/
theorem doneExactlyWhenReady : Obligations.DoneExactlyWhenReady := by
  refine ⟨fun p s h => ?_, fun s t => step_keeps_done_iff_ready⟩
  obtain ⟨-, rfl⟩ := construct_eq_next.1 h
  simp

/-- Settles O45, by what a driven pin and each other pin read, and by the events each step appends. -/
theorem onlySetEventsDriveLevels : Obligations.OnlySetEventsDriveLevels :=
  ⟨rfl,
    fun s _ v hlv hp => ⟨Levels.get_drive_same hlv hp v, fun _ hqp => Levels.get_drive_ne s.lv hqp v⟩,
    fun _ _ => rfl,
    fun _ _ => step_appends_events⟩

/-- Settles O46, by what a step, a tick and an instruction append. -/
theorem traceOnlyGrows : Obligations.TraceOnlyGrows := by
  refine ⟨emit_trace, fun s t h => ?_, fun _ _ => tick_trace_prefix, fun _ _ _ => exec_trace_prefix⟩
  obtain ⟨evs, htrace, -⟩ := step_appends_events h
  exact htrace ▸ List.prefix_append _ _

end Machine

end Sys2Proof
end

section
/-! What driving the data lines and pulsing E each leave on the pins and show the controller, and the statement of
20_memory.md settled. -/

namespace Sys2Proof

/-- Line Dk of the lines that carry a byte is at bit k (R41, R43). -/
theorem getElem?_linesOf {w : Width} {k : Nat} (b : Byte) (hk : k < w.lines) :
    (linesOf w b)[k]? = some (Level.ofBool (b.getLsbD k)) := by
  simp [linesOf, hk]

/-- `DRIVE8(b)` puts bit i on Di and changes no other pin (R101). -/
theorem applyAll_driveEight {lv : Levels} (h : lv.fits .eight = true) (b : Byte) :
    lv.applyAll (driveEight b) = { lv with data := linesOf .eight b } := by
  obtain ⟨d0, d1, d2, d3, d4, d5, d6, d7, hdata⟩ := eq_eight_of_fits h
  simp [driveEight, Levels.drive, hdata, linesOf, Width.lines, List.range, List.range.loop]

/-- `PULSE()` leaves E low and changes no other pin (R100). -/
theorem applyAll_pulse (lv : Levels) : lv.applyAll pulse = { lv with e := .low } := rfl

/-- Only a `SET(E, 1)` latches: events without one only change the levels that the next transfer finds (R55). -/
theorem transfersFrom_append_of_no_rising {as : List Event} (h : Event.set .e true ∉ as) (lv : Levels)
    (bs : List Event) : transfersFrom lv (as ++ bs) = transfersFrom (lv.applyAll as) bs := by
  induction as generalizing lv with
  | nil => rfl
  | cons ev as ih =>
    obtain ⟨hev, has⟩ := List.ne_and_not_mem_of_not_mem_cons h
    have hstart : (ev :: (as ++ bs)).take 4 ≠ pulse := fun hp => hev (List.head_eq_of_cons_eq hp).symm
    rw [List.cons_append, transfersFrom, if_neg hstart, ih has, Levels.applyAll_cons]

/-- A pulse latches once, and what it latches is the levels it finds (R55). -/
theorem transfersFrom_pulse (lv : Levels) : transfersFrom lv pulse = [lv.transfer] := by
  simp [transfersFrom, pulse]

/-- `DRIVE8(b)` raises E nowhere (R101). -/
theorem rising_not_mem_driveEight (b : Byte) : Event.set .e true ∉ driveEight b := by
  simp [driveEight]

/-- `T8_WRITE_BYTE(b)` leaves bit i on Di and E low, and changes neither RS nor R/W (R102, R107). -/
theorem applyAll_writeByte_eight {lv : Levels} (h : lv.fits .eight = true) (b : Byte) :
    lv.applyAll (writeByte .eight b) = { lv with data := linesOf .eight b, e := .low } := by
  rw [writeByte, t8WriteByte, Levels.applyAll_append, applyAll_driveEight h, applyAll_pulse]

/-- `T8_WRITE_BYTE(b)` is one transfer: bit i on Di, with RS as the call found it (R102, R107). -/
theorem transfersFrom_writeByte_eight {lv : Levels} (h : lv.fits .eight = true) (b : Byte) :
    transfersFrom lv (writeByte .eight b) = [⟨lv.rs, linesOf .eight b⟩] := by
  rw [writeByte, t8WriteByte, transfersFrom_append_of_no_rising (rising_not_mem_driveEight b),
    transfersFrom_pulse, applyAll_driveEight h, Levels.transfer]

/-- Settles O26: the pulse comes after the eight lines are driven and moves none of them, so the lines that are latched
are the lines that are left. -/
theorem byteBitsOnEightLines : Obligations.ByteBitsOnEightLines := by
  intro lv b k h
  rw [applyAll_writeByte_eight h]
  exact ⟨getElem?_linesOf b k.isLt, transfersFrom_writeByte_eight h b⟩

end Sys2Proof
end

section
/-! The address bytes of the encoder: which bits of an operand reach the byte, the range of the byte, and the statements of
41_command_encoder.md settled. -/

namespace Sys2Proof

/-- The opcode is a lower bound of the CGRAM byte (R88). -/
theorem le_toNat_encCgram (a : Byte) : 0x40 ≤ (encCgram a).toNat := by
  rw [encCgram, BitVec.toNat_or]
  exact Nat.left_le_or

/-- The CGRAM byte has no bit above the opcode's bit 6, because the mask leaves 6 bits of the address (R88). -/
theorem toNat_encCgram_lt (a : Byte) : (encCgram a).toNat < 0x80 := by
  have hmask : (a &&& 0x3F).toNat < 2 ^ 7 := by
    rw [BitVec.toNat_and]
    exact Nat.and_lt_two_pow _ (by decide)
  rw [encCgram, BitVec.toNat_or]
  exact Nat.or_lt_two_pow (by decide) hmask

/-- The opcode is a lower bound of the DDRAM byte (R89). -/
theorem le_toNat_encDdram (a : Byte) : 0x80 ≤ (encDdram a).toNat := by
  rw [encDdram, BitVec.toNat_or]
  exact Nat.left_le_or

/-- Setting bit 7 of a DDRAM address does not change its byte: the opcode has that bit already (R89). -/
@[simp] theorem encDdram_or_bit7 (a : Byte) : encDdram (a ||| 0x80) = encDdram a := by
  rw [encDdram, encDdram, BitVec.or_comm a, ← BitVec.or_assoc, BitVec.or_self]

/-- OR distributes over AND on words, bit by bit. -/
theorem bitVec_or_and_distrib_left {n : Nat} (x y z : BitVec n) : x ||| (y &&& z) = (x ||| y) &&& (x ||| z) := by
  ext i hi
  simp [Bool.or_and_distrib_left]

/-- Clearing bit 7 of a DDRAM address does not change its byte: OR distributes over the mask, and the mask with the opcode
is all ones (R89). -/
@[simp] theorem encDdram_and_low7 (a : Byte) : encDdram (a &&& 0x7F) = encDdram a := by
  have hones : (0x80 ||| 0x7F : Byte) = BitVec.allOnes 8 := by decide
  rw [encDdram, encDdram, bitVec_or_and_distrib_left, hones, BitVec.and_allOnes]

/-- Settles O14: both bytes are constants of the encoder. -/
theorem clearAndHomeBytes : Obligations.ClearAndHomeBytes := ⟨rfl, rfl⟩

/-- Settles O15, by the two ends of the CGRAM byte's range. -/
theorem cgramAddressIsMasked : Obligations.CgramAddressIsMasked :=
  ⟨fun _ => rfl, fun a => ⟨le_toNat_encCgram a, Nat.le_of_lt_succ (toNat_encCgram_lt a)⟩, rfl, rfl, rfl, rfl⟩

/-- Settles O16: the DDRAM byte is the same with bit 7 of the address set, clear, or as it was. -/
theorem ddramAddressIsAbsorbed : Obligations.DdramAddressIsAbsorbed :=
  ⟨fun _ => rfl, fun a => (encDdram_or_bit7 a).trans (encDdram_and_low7 a).symm, le_toNat_encDdram,
    rfl, rfl, rfl, rfl, rfl⟩

end Sys2Proof
end

section
/-! Which sleeps a transfer requests and how many pulses it has, and the statements of 42_transport.md settled. -/

namespace Sys2Proof

/-- A sleep is an event of the list exactly when its amount is among the list's sleeps (R137). -/
theorem sleep_mem_iff_mem_sleepsOf {evs : List Event} {us : Nat} : Event.sleep us ∈ evs ↔ us ∈ sleepsOf evs := by
  induction evs with
  | nil => simp [sleepsOf]
  | cons ev evs ih => cases ev <;> simp [sleepsOf, ih]

/-- A byte transfer sleeps as its pulses do: register-select before it adds no sleep (R100, R120). -/
theorem sleepsOf_writeByte (w : Width) (b : Byte) :
    sleepsOf (writeByte w b) = (List.replicate w.transfersPerByte [1, 100]).flatten :=
  sleepsOf_sendWord w ⟨false, b⟩

/-- A nibble transfer sleeps as its one pulse does: driving the data lines adds no sleep (R100, R103, R104). -/
theorem sleepsOf_writeNibble (w : Width) (n : Nibble) : sleepsOf (writeNibble w n) = [1, 100] := by
  cases w <;> rfl

/-- Every sleep of a transfer is one of the two of `PULSE()` (R100, R107). -/
theorem eq_one_or_hundred_of_sleep_mem_transfer {w : Width} {b : Byte} {n : Nibble} {us : Nat}
    (h : Event.sleep us ∈ writeByte w b ∨ Event.sleep us ∈ writeNibble w n) : us = 1 ∨ us = 100 := by
  rw [sleep_mem_iff_mem_sleepsOf, sleep_mem_iff_mem_sleepsOf, sleepsOf_writeByte, sleepsOf_writeNibble] at h
  obtain hbyte | hnibble := h
  · obtain ⟨sleeps, hsleeps, hus⟩ := List.mem_flatten.1 hbyte
    rw [List.eq_of_mem_replicate hsleeps] at hus
    simpa using hus
  · simpa using hnibble

/-- No event of a transfer is outside what the transport may emit (R107). -/
theorem ofTransport_of_mem_transfer {w : Width} {b : Byte} {n : Nibble} {ev : Event}
    (h : ev ∈ writeByte w b ∨ ev ∈ writeNibble w n) : ev.ofTransport w = true :=
  h.elim (List.all_eq_true.1 (writeByte_ofTransport w b) ev) (List.all_eq_true.1 (writeNibble_ofTransport w n) ev)

/-- A SET that the transport may emit is of E or of a data line that exists (R107). -/
theorem eq_e_or_data_of_set_ofTransport {w : Width} {p : Pin} {v : Bool}
    (h : (Event.set p v).ofTransport w = true) : p = .e ∨ ∃ k : Fin 8, k.val < w.lines ∧ p = .d k := by
  cases p with
  | rs | rw => exact absurd h Bool.false_ne_true
  | e => exact .inl rfl
  | d k => exact .inr ⟨k, of_decide_eq_true h, rfl⟩

/-- Settles O29: a SET is of E or an existing data line because the transport may emit no other, and a sleep is one of a
pulse's two. -/
theorem transportDrivesOnlyEnableAndData : Obligations.TransportDrivesOnlyEnableAndData := by
  intro w b n ev h
  cases ev with
  | set p v =>
    obtain rfl | ⟨k, hk, rfl⟩ := eq_e_or_data_of_set_ofTransport (ofTransport_of_mem_transfer h)
    · exact .inl ⟨v, rfl⟩
    · exact .inr (.inl ⟨k, v, hk, rfl⟩)
  | sleep us =>
    obtain rfl | rfl := eq_one_or_hundred_of_sleep_mem_transfer h
    · exact .inr (.inr (.inl rfl))
    · exact .inr (.inr (.inr rfl))

/-- Driving the four lines raises E nowhere (R104). -/
theorem rising_not_mem_driveFour (n : Nibble) : Event.set .e true ∉ driveFour n := by
  simp [driveFour]

/-- `PULSE()` raises E once (R100). -/
theorem pulseCount_pulse : pulseCount pulse = 1 := rfl

/-- Events that raise E nowhere, then `PULSE()`, are one pulse (R100). -/
theorem pulseCount_append_pulse {evs : List Event} (h : Event.set .e true ∉ evs) : pulseCount (evs ++ pulse) = 1 := by
  rw [pulseCount_append, pulseCount_pulse, pulseCount, List.count_eq_zero_of_not_mem h]

/-- A nibble transfer is one pulse on either width (R103, R104). -/
theorem pulseCount_writeNibble (w : Width) (n : Nibble) : pulseCount (writeNibble w n) = 1 := by
  cases w with
  | four => exact pulseCount_append_pulse (rising_not_mem_driveFour n)
  | eight => exact pulseCount_append_pulse (rising_not_mem_driveEight _)

/-- `T4_WRITE_BYTE(b)` is the transfer of the high nibble, then that of the low nibble (R105). -/
theorem writeByte_four (b : Byte) :
    writeByte .four b = writeNibble .four (highNibble b) ++ writeNibble .four (lowNibble b) := rfl

/-- Settles O25: the transport's pulse with its two sleeps written as numbers. -/
theorem pulseIsFourEvents : Obligations.PulseIsFourEvents := rfl

/-- Settles O27: the byte is two nibble transfers, and each has its own pulse. -/
theorem fourLineByteIsTwoNibbles : Obligations.FourLineByteIsTwoNibbles := by
  intro b
  refine ⟨writeByte_four b, ?_⟩
  rw [writeByte_four, pulseCount_append, pulseCount_writeNibble, pulseCount_writeNibble]

end Sys2Proof
end

section
/-! What an operation emits from an idle block and which pins it drives, and the statements of 43_driver_ops.md settled. -/

namespace Sys2Proof

/-- The transport drives no R/W pin and no pin that does not exist (R107). -/
theorem isRw_and_wellFormed_of_ofTransport {w : Width} {ev : Event} (h : ev.ofTransport w = true) :
    ev.isRw = false ∧ ev.wellFormed w = true := by
  cases ev with
  | set p v =>
    obtain rfl | ⟨k, hk, rfl⟩ := eq_e_or_data_of_set_ofTransport h
    · exact ⟨rfl, rfl⟩
    · exact ⟨rfl, decide_eq_true hk⟩
  | sleep us => exact ⟨rfl, rfl⟩

/-- Sending a CMD or DATA byte drives no R/W pin and no pin that does not exist: its events are the register-select level
and the transport's (R120, R121). -/
theorem isRw_and_wellFormed_of_mem_sendWord {w : Width} {x : BusWord} {ev : Event} (h : ev ∈ sendWord w x) :
    ev.isRw = false ∧ ev.wellFormed w = true := by
  obtain rfl | hbyte := List.mem_cons.1 h
  · exact ⟨rfl, rfl⟩
  · exact isRw_and_wellFormed_of_ofTransport (List.all_eq_true.1 (writeByte_ofTransport w x.byte) ev hbyte)

/-- The extra time of CLEAR and HOME is a sleep, which drives no pin (R137). -/
theorem isRw_and_wellFormed_of_mem_settleEvents {w : Width} {i : Instr} {ev : Event} (h : ev ∈ i.settleEvents) :
    ev.isRw = false ∧ ev.wellFormed w = true := by
  cases i with
  | clear | home => rw [List.mem_singleton.1 h]; exact ⟨rfl, rfl⟩
  | _ => exact absurd h List.not_mem_nil

/-- A row with a word of its own is an operation that the host can invoke: INIT sends no word. -/
theorem hostCallable_of_encodeWord {w : Width} {i : Instr} {x : BusWord} (h : encodeWord w i = some x) :
    i.hostCallable = true := by
  cases i with
  | init => cases h
  | _ => rfl

namespace Machine

/-- No operation drives R/W or a pin that does not exist (R138): it sends the words of its expansion, each with its extra
sleep. -/
theorem isRw_and_wellFormed_of_mem_eventsOf {w : Width} {i : Instr} {ev : Event} (hc : i.hostCallable = true)
    (h : ev ∈ eventsOf w i) : ev.isRw = false ∧ ev.wellFormed w = true := by
  rw [eventsOf_expand hc] at h
  obtain ⟨j, hj, hev⟩ := List.mem_flatMap.1 h
  obtain ⟨x, hx⟩ := expand_hasWord hj w
  rw [eventsOf_of_word hx] at hev
  obtain hword | hsettle := List.mem_append.1 hev
  · exact isRw_and_wellFormed_of_mem_sendWord hword
  · exact isRw_and_wellFormed_of_mem_settleEvents hsettle

/-- No operation changes the level of R/W (R138). -/
theorem applyAll_eventsOf_rw {i : Instr} (hc : i.hostCallable = true) (lv : Levels) (w : Width) :
    (lv.applyAll (eventsOf w i)).rw = lv.rw :=
  lv.applyAll_rw _ fun ev hev v hset => by
    have hrw := (isRw_and_wellFormed_of_mem_eventsOf hc hev).1
    rw [hset] at hrw
    cases hrw

/-- An idle block answers a row that has a word and no extra sleep with exactly that word sent (R60, R122). -/
theorem exec_emits_sendWord {s : State} {i : Instr} {x : BusWord} (hs : s.Idle) (hx : encodeWord s.width i = some x)
    (hsettle : i.settleEvents = []) : ∃ t, exec i s = .next t ∧ Emits s t (sendWord s.width x) := by
  have hevents : eventsOf s.width i = sendWord s.width x := by
    rw [eventsOf_of_word hx, hsettle, List.append_nil]
  rw [exec_of_idle (hostCallable_of_encodeWord hx) hs, hevents]
  exact ⟨_, rfl, emits_emitAll s _⟩

/-- An idle block answers a command that has no extra sleep with exactly `CMD_SEND` of its byte (R120, R122). -/
theorem exec_emits_cmdSend {s : State} {i : Instr} {c : Byte} (hs : s.Idle)
    (hx : encodeWord s.width i = some ⟨false, c⟩) (hsettle : i.settleEvents = []) :
    ∃ t, exec i s = .next t ∧ Emits s t (cmdSend s.width c) := by
  rw [cmdSend_eq]
  exact exec_emits_sendWord hs hx hsettle

/-- Settles O41: on a READY block only an operation of R123 to R136 answers, and it emits its own list, whose events drive
neither R/W nor a pin that does not exist. -/
theorem operationsChangeOnlyPinsAndTrace : Obligations.OperationsChangeOnlyPinsAndTrace := by
  intro i s t hready h
  obtain ⟨-, hc, rfl⟩ | ⟨⟨hinit, -⟩, -, -⟩ := exec_cases h
  · refine ⟨emits_emitAll s _, ?_, fun ev => isRw_and_wellFormed_of_mem_eventsOf hc⟩
    rw [emitAll_lv, applyAll_eventsOf_rw hc]
  · rw [hready] at hinit
    cases hinit

/-- Settles O31: both rows have a word and no extra sleep. -/
theorem entryAndDisplayComplete : Obligations.EntryAndDisplayComplete := fun _ hs =>
  ⟨fun _ _ => exec_emits_cmdSend hs rfl rfl, fun _ _ _ => exec_emits_cmdSend hs rfl rfl, rfl, rfl, rfl⟩

/-- Settles O34: both rows have a word and no extra sleep, and the examples are two of the encoder's bytes. -/
theorem addressCommandsComplete : Obligations.AddressCommandsComplete := fun _ _ hs =>
  ⟨exec_emits_cmdSend hs rfl rfl, exec_emits_cmdSend hs rfl rfl, exec_emits_cmdSend hs rfl rfl,
    exec_emits_cmdSend hs rfl rfl⟩

/-- Settles O35: the word of WRITE is the byte itself with register-select high. -/
theorem writeSendsByteUnchanged : Obligations.WriteSendsByteUnchanged := by
  intro s b hs
  rw [dataSend_eq]
  exact exec_emits_sendWord hs rfl rfl

end Machine

end Sys2Proof
end

section
/-! The one event on R/W in the initialization and in the whole trace of a coherent state, and the statement of
44_initialization.md settled. -/

namespace Sys2Proof

/-- "No event on R/W" of a list, as a fact about each of its events (R164). -/
theorem filter_isRw_eq_nil_iff {evs : List Event} :
    evs.filter Event.isRw = [] ↔ ∀ ev ∈ evs, ev.isRw = false := by
  simp [List.filter_eq_nil_iff]

/-- Events of which none is on R/W leave its level (R26). -/
theorem Levels.applyAll_rw_of_filter_isRw {evs : List Event} (h : evs.filter Event.isRw = []) (lv : Levels) :
    (lv.applyAll evs).rw = lv.rw :=
  lv.applyAll_rw evs fun _ hev _ hset =>
    Bool.noConfusion ((congrArg Event.isRw hset).symm.trans (filter_isRw_eq_nil_iff.1 h _ hev))

/-- If a list has no event on R/W, no beginning of it has one. -/
theorem filter_isRw_take {evs : List Event} (h : evs.filter Event.isRw = []) (k : Nat) :
    (evs.take k).filter Event.isRw = [] :=
  filter_isRw_eq_nil_iff.2 fun ev hev => filter_isRw_eq_nil_iff.1 h ev (List.mem_of_mem_take hev)

/-- A nibble transfer has no event on R/W (R107). -/
theorem filter_isRw_writeNibble (w : Width) (n : Nibble) : (writeNibble w n).filter Event.isRw = [] :=
  filter_isRw_eq_nil_iff.2 fun ev hev =>
    (isRw_and_wellFormed_of_ofTransport (List.all_eq_true.1 (writeNibble_ofTransport w n) ev hev)).1

namespace Machine

/-- S4 is the only move of the initialization with an event on R/W (R164): S0 drives register-select, and the others
transfer a nibble or do nothing. -/
theorem filter_isRw_initAction (w : Width) {st : InitStep} (h : st ≠ .s4) :
    (initAction w st).filter Event.isRw = [] := by
  cases st with
  | s0 | done => rfl
  | s1 | s2 => exact filter_isRw_writeNibble w 0x3
  | s3 =>
    cases w with
    | four => exact filter_isRw_writeNibble .four 0x2
    | eight => rfl
  | s4 => exact absurd rfl h

/-- No operation of R123 to R136 has an event on R/W (R138). -/
theorem filter_isRw_eventsOf {i : Instr} (hc : i.hostCallable = true) (w : Width) :
    (eventsOf w i).filter Event.isRw = [] :=
  filter_isRw_eq_nil_iff.2 fun _ hev => (isRw_and_wellFormed_of_mem_eventsOf hc hev).1

/-- No sequence of operations has an event on R/W (R138). -/
theorem filter_isRw_flatMap_eventsOf {ops : List Instr} (hops : ∀ i ∈ ops, i.hostCallable = true) (w : Width) :
    (ops.flatMap (eventsOf w)).filter Event.isRw = [] :=
  filter_isRw_eq_nil_iff.2 fun _ hev => by
    obtain ⟨i, hi, hmem⟩ := List.mem_flatMap.1 hev
    exact filter_isRw_eq_nil_iff.1 (filter_isRw_eventsOf (hops i hi) w) _ hmem

/-- The initialization's list is the actions of S0 to S3, none with an event on R/W, and then the event of S4 (R164,
R166). -/
theorem initEvents_eq_append_set_rw (w : Width) :
    ∃ before, before.filter Event.isRw = [] ∧ initEvents w = before ++ [.set .rw false] := by
  refine ⟨initAction w .s0 ++ initAction w .s1 ++ initAction w .s2 ++ initAction w .s3, ?_, rfl⟩
  simp [filter_isRw_initAction]

/-- The initialization has exactly one event on R/W, the low level (R164). -/
theorem filter_isRw_initEvents (w : Width) : (initEvents w).filter Event.isRw = [.set .rw false] := by
  obtain ⟨before, hbefore, heq⟩ := initEvents_eq_append_set_rw w
  rw [heq, List.filter_append, hbefore]
  rfl

/-- Before its last event the initialization has no event on R/W (R164). -/
theorem filter_isRw_initEvents_take {w : Width} {k : Nat} (hk : k < (initEvents w).length) :
    ((initEvents w).take k).filter Event.isRw = [] := by
  obtain ⟨before, hbefore, heq⟩ := initEvents_eq_append_set_rw w
  rw [heq, List.length_append, List.length_singleton] at hk
  rw [heq, List.take_append_of_le_length (Nat.le_of_lt_succ hk), filter_isRw_take hbefore]

/-- The whole initialization leaves R/W low, at whatever level it found it (R164). -/
theorem applyAll_initEvents_rw (w : Width) (lv : Levels) : (lv.applyAll (initEvents w)).rw = .low := by
  obtain ⟨before, -, heq⟩ := initEvents_eq_append_set_rw w
  rw [heq, Levels.applyAll_append]
  rfl

/-- While INITIALIZING the trace is the initialization's list up to some event before its end (R165). -/
theorem trace_of_traceShape_initializing {s : State} (h : TraceShape s) (hphase : s.phase = .initializing) :
    ∃ k, k < (initEvents s.width).length ∧ s.trace = (initEvents s.width).take k := by
  cases hf : s.inFlight with
  | none =>
    rw [TraceShape, hphase, hf] at h
    exact ⟨_, initOffset_lt h.1, h.2⟩
  | some f =>
    rw [TraceShape, hphase, hf] at h
    obtain ⟨-, hk, -, htrace⟩ := h
    exact ⟨f.index, hk, htrace⟩

/-- When READY the trace is the whole initialization and then events of which none is on R/W: those of operations and of
the part of the running one (R138, R211). -/
theorem trace_of_traceShape_ready {s : State} (h : TraceShape s) (hphase : s.phase = .ready) :
    ∃ evs, evs.filter Event.isRw = [] ∧ s.trace = initEvents s.width ++ evs := by
  cases hf : s.inFlight with
  | none =>
    rw [TraceShape, hphase, hf] at h
    obtain ⟨-, ops, hops, htrace⟩ := h
    exact ⟨_, filter_isRw_flatMap_eventsOf hops s.width, htrace⟩
  | some f =>
    rw [TraceShape, hphase, hf] at h
    obtain ⟨-, hc, -, tr, ⟨ops, hops, rfl⟩, htrace⟩ := h
    refine ⟨ops.flatMap (eventsOf s.width) ++ (eventsOf s.width f.op).take f.index, ?_, ?_⟩
    · rw [List.filter_append, filter_isRw_flatMap_eventsOf hops, filter_isRw_take (filter_isRw_eventsOf hc s.width),
        List.append_nil]
    · rw [htrace, List.append_assoc]

/-- The move at S4 appends `SET(RW, 0)` and leaves R/W low (R160, R164). -/
theorem initAdvance_s4_rw {s : State} (h : s.initStep = .s4) :
    (initAdvance s).trace = s.trace ++ [.set .rw false] ∧ (initAdvance s).lv.rw = .low := by
  rw [initAdvance_trace, initAdvance_lv, h]
  exact ⟨rfl, rfl⟩

/-- While INITIALIZING no event on R/W has been emitted, and R/W is at its initial level (R164). -/
theorem Coherent.rw_of_initializing {p : Params} {s : State} (h : Coherent p s) (hphase : s.phase = .initializing) :
    s.trace.filter Event.isRw = [] ∧ s.lv.rw = p.pinInit.rw := by
  obtain ⟨k, hk, htrace⟩ := trace_of_traceShape_initializing h.shape hphase
  have hnone : s.trace.filter Event.isRw = [] := by rw [htrace, filter_isRw_initEvents_take hk]
  exact ⟨hnone, by rw [h.lv, Levels.applyAll_rw_of_filter_isRw hnone]⟩

/-- When READY `SET(RW, 0)` is the only event on R/W so far, and R/W is low (R164). -/
theorem Coherent.rw_of_ready {p : Params} {s : State} (h : Coherent p s) (hphase : s.phase = .ready) :
    s.trace.filter Event.isRw = [.set .rw false] ∧ s.lv.rw = .low := by
  obtain ⟨evs, hevs, htrace⟩ := trace_of_traceShape_ready h.shape hphase
  constructor
  · rw [htrace, List.filter_append, filter_isRw_initEvents, hevs, List.append_nil]
  · rw [h.lv, htrace, Levels.applyAll_append, Levels.applyAll_rw_of_filter_isRw hevs, applyAll_initEvents_rw]

/-- Settles O8: the initialization's one event on R/W is the last of its list, so the trace of a coherent state has it
exactly when the list is complete, and operations add none. -/
theorem readWriteDrivenLowExactlyOnce : Obligations.ReadWriteDrivenLowExactlyOnce :=
  ⟨fun s hs hs4 => ⟨initAdvance s, step_of_initializing hs, initAdvance_s4_rw hs4⟩,
    fun w _ => filter_isRw_initAction w,
    fun w _ hi => filter_isRw_eventsOf (hostCallable_of_ne_init hi) w,
    fun _ _ => Coherent.rw_of_initializing,
    fun _ _ => Coherent.rw_of_ready⟩

end Machine

end Sys2Proof
end

section
/-! The decoder against the encoder: the bits of each command byte, the word of each row read back (R72), and the command
bytes that no row has (R73). The statements about the decoder and the encoder's range settled. -/

namespace Sys2Proof

section Bytes

/-- Two bytes are equal when their eight bits are. -/
theorem byte_eq_iff {a b : Byte} :
    a = b ↔ a.getLsbD 0 = b.getLsbD 0 ∧ a.getLsbD 1 = b.getLsbD 1 ∧ a.getLsbD 2 = b.getLsbD 2 ∧
      a.getLsbD 3 = b.getLsbD 3 ∧ a.getLsbD 4 = b.getLsbD 4 ∧ a.getLsbD 5 = b.getLsbD 5 ∧
      a.getLsbD 6 = b.getLsbD 6 ∧ a.getLsbD 7 = b.getLsbD 7 := by
  refine ⟨fun h => by simp [h], fun ⟨h0, h1, h2, h3, h4, h5, h6, h7⟩ => BitVec.eq_of_getLsbD_eq fun k hk => ?_⟩
  interval_cases k <;> assumption

/-- A bit of a byte as a digit of its number. -/
theorem getLsbD_eq_true_iff (b : Byte) (k : Nat) : b.getLsbD k = true ↔ b.toNat / 2 ^ k % 2 = 1 := by
  simp [BitVec.getLsbD, Nat.testBit_eq_decide_div_mod_eq]

/-- Bits 1:0 of a byte are 0 when each of the two is. -/
theorem and_three_eq_zero_iff {b : Byte} : b &&& 0x03 = 0 ↔ b.getLsbD 0 = false ∧ b.getLsbD 1 = false := by
  simp [byte_eq_iff]

/-- A byte whose bits 1:0 are not 0 is no multiple of four. -/
theorem toNat_mod_four_ne_zero {b : Byte} (h : b &&& 0x03 ≠ 0) : b.toNat % 4 ≠ 0 := by
  simp only [Ne, and_three_eq_zero_iff, ← Bool.not_eq_true, getLsbD_eq_true_iff] at h
  omega

end Bytes

section Fields

/-! A field's bit is the boolean that the decoder reads there (R70). -/

@[simp] theorem getElem_boolBit (v : Bool) {k : Nat} (hk : k < 8) : (boolBit v)[k] = (decide (k = 0) && v) := by
  cases v <;> simp [boolBit]

theorem entryDir_bit_ite (v : Bool) : (if v then EntryDir.increment else .decrement).bit = boolBit v := by
  cases v <;> rfl
theorem shiftDir_bit_ite (v : Bool) : (if v then ShiftDir.right else .left).bit = boolBit v := by cases v <;> rfl
theorem lineCount_bit_ite (v : Bool) : (if v then LineCount.two else .one).bit = boolBit v := by cases v <;> rfl
theorem charGrid_bit_ite (v : Bool) : (if v then CharGrid.grid5x11 else .grid5x8).bit = boolBit v := by
  cases v <;> rfl
theorem width_bit_eq (w : Width) : w.bit = boolBit w.eightBits := by cases w <;> rfl

end Fields

section Readings

variable {w : Width} {b : Byte}

/-- A right reading of a command byte: an instruction whose word carries the byte and whose operands fit its fields (R72),
or the rejection of a byte that R73 lists. -/
def CommandReading (w : Width) (b : Byte) : Except DecodeReject Instr → Prop
  | .ok i => encodeWord w i = some ⟨false, b⟩ ∧ i.canonical = i
  | .error _ => neverSent w b = true

/-- To read a byte as an instruction, it is enough that the encoder rebuilds the byte. -/
theorem commandReading_ok {i : Instr} {c : Byte} (hword : encodeWord w i = some ⟨false, c⟩) (hfit : i.canonical = i)
    (hc : c = b) : CommandReading w b (.ok i) := ⟨hc ▸ hword, hfit⟩

theorem canonical_setDdram_masked (a : Byte) : (Instr.setDdram (a &&& 0x7F)).canonical = .setDdram (a &&& 0x7F) := by
  rw [Instr.canonical, BitVec.and_assoc, BitVec.and_self]

theorem canonical_setCgram_masked (a : Byte) : (Instr.setCgram (a &&& 0x3F)).canonical = .setCgram (a &&& 0x3F) := by
  rw [Instr.canonical, BitVec.and_assoc, BitVec.and_self]

/-- The FUNCTION byte of the other width is never sent (R73, R87). -/
theorem neverSent_encFunction_of_ne {v w : Width} (h : v ≠ w) (lines : LineCount) (grid : CharGrid) :
    neverSent w (encFunction v lines grid) = true := by
  revert h
  cases v <;> cases w <;> cases lines <;> cases grid <;> decide

/-- Set spare bits make a byte of the two ranges of R73 one that is never sent. -/
theorem neverSent_of_spare
    (hrange : (0x11 ≤ b.toNat ∧ b.toNat ≤ 0x1F) ∨ (0x21 ≤ b.toNat ∧ b.toNat ≤ 0x3F)) (hspare : b &&& 0x03 ≠ 0) :
    neverSent w b = true := by
  have hbits : (b &&& 0x03 != 0) = true := bne_iff_ne.2 hspare
  simp only [neverSent, hbits]
  obtain h | h := hrange <;> simp [h]

/-! Bit by bit from the top: a byte with this highest set bit is rebuilt by the encoder of its row from the fields below
(R61 to R69), or a spare bit makes it one that R73 lists. -/

theorem encDdram_of_bits (h7 : b.getLsbD 7 = true) : encDdram (b &&& 0x7F) = b := by
  simp_all [encDdram, byte_eq_iff]

variable (h7 : ¬ b.getLsbD 7 = true)
include h7

theorem encCgram_of_bits (h6 : b.getLsbD 6 = true) : encCgram (b &&& 0x3F) = b := by
  simp_all [encCgram, byte_eq_iff]

variable (h6 : ¬ b.getLsbD 6 = true)
include h6

theorem encFunction_of_bits (h5 : b.getLsbD 5 = true) (hspare : ¬ b &&& 0x03 ≠ 0)
    (h4 : ¬ b.getLsbD 4 ≠ w.eightBits) :
    encFunction w (if b.getLsbD 3 then .two else .one) (if b.getLsbD 2 then .grid5x11 else .grid5x8) = b := by
  rw [not_not, and_three_eq_zero_iff] at hspare
  rw [encFunction, width_bit_eq, lineCount_bit_ite, charGrid_bit_ite]
  simp_all [byte_eq_iff]

theorem neverSent_of_function_spare (h5 : b.getLsbD 5 = true) (hspare : b &&& 0x03 ≠ 0) : neverSent w b = true := by
  refine neverSent_of_spare (.inr ?_) hspare
  have hmod := toNat_mod_four_ne_zero hspare
  have hlt : b.toNat < 256 := b.isLt
  simp only [getLsbD_eq_true_iff] at h7 h6 h5
  omega

theorem neverSent_of_function_width (h5 : b.getLsbD 5 = true) (hspare : ¬ b &&& 0x03 ≠ 0)
    (h4 : b.getLsbD 4 ≠ w.eightBits) : neverSent w b = true := by
  obtain ⟨v, hv, hne⟩ : ∃ v : Width, ¬ b.getLsbD 4 ≠ v.eightBits ∧ v ≠ w := by
    cases w with
    | four => exact ⟨.eight, by simpa [Width.eightBits] using h4, by decide⟩
    | eight => exact ⟨.four, by simpa [Width.eightBits] using h4, by decide⟩
  rw [← encFunction_of_bits h7 h6 h5 hspare hv]
  exact neverSent_encFunction_of_ne hne _ _

variable (h5 : ¬ b.getLsbD 5 = true)
include h5

theorem encShiftDisplay_of_bits (h4 : b.getLsbD 4 = true) (hspare : ¬ b &&& 0x03 ≠ 0) (h3 : b.getLsbD 3 = true) :
    encShiftDisplay (if b.getLsbD 2 then .right else .left) = b := by
  rw [not_not, and_three_eq_zero_iff] at hspare
  rw [encShiftDisplay, shiftDir_bit_ite]
  simp_all [byte_eq_iff]

theorem encShiftCursor_of_bits (h4 : b.getLsbD 4 = true) (hspare : ¬ b &&& 0x03 ≠ 0) (h3 : ¬ b.getLsbD 3 = true) :
    encShiftCursor (if b.getLsbD 2 then .right else .left) = b := by
  rw [not_not, and_three_eq_zero_iff] at hspare
  rw [encShiftCursor, shiftDir_bit_ite]
  simp_all [byte_eq_iff]

theorem neverSent_of_shift_spare (h4 : b.getLsbD 4 = true) (hspare : b &&& 0x03 ≠ 0) : neverSent w b = true := by
  refine neverSent_of_spare (.inl ?_) hspare
  have hmod := toNat_mod_four_ne_zero hspare
  have hlt : b.toNat < 256 := b.isLt
  simp only [getLsbD_eq_true_iff] at h7 h6 h5 h4
  omega

variable (h4 : ¬ b.getLsbD 4 = true)
include h4

theorem encDisplay_of_bits (h3 : b.getLsbD 3 = true) :
    encDisplay (b.getLsbD 2) (b.getLsbD 1) (b.getLsbD 0) = b := by
  simp_all [encDisplay, byte_eq_iff]

variable (h3 : ¬ b.getLsbD 3 = true)
include h3

theorem encEntry_of_bits (h2 : b.getLsbD 2 = true) :
    encEntry (if b.getLsbD 1 then .increment else .decrement) (b.getLsbD 0) = b := by
  rw [encEntry, entryDir_bit_ite]
  simp_all [byte_eq_iff]

variable (h2 : ¬ b.getLsbD 2 = true)
include h2

theorem encHome_of_bits (h1 : b.getLsbD 1 = true) (h0 : ¬ b.getLsbD 0 = true) : encHome = b := by
  simp_all [encHome, byte_eq_iff]

theorem neverSent_of_home_spare (h1 : b.getLsbD 1 = true) (h0 : b.getLsbD 0 = true) : neverSent w b = true := by
  have hb : b = 0x03 := by simp_all [byte_eq_iff]
  simp [neverSent, hb]

variable (h1 : ¬ b.getLsbD 1 = true)
include h1

theorem encClear_of_bits (h0 : b.getLsbD 0 = true) : encClear = b := by
  simp_all [encClear, byte_eq_iff]

theorem neverSent_of_no_opcode (h0 : ¬ b.getLsbD 0 = true) : neverSent w b = true := by
  have hb : b = 0x00 := by simp_all [byte_eq_iff]
  simp [neverSent, hb]

end Readings

/-- The decoder reads every command byte rightly: one row or one rejection for each highest set bit (R72, R73). -/
theorem decodeCommand_reading (w : Width) (b : Byte) : CommandReading w b (decodeCommand w b) := by
  unfold decodeCommand
  split
  · next h7 => exact commandReading_ok rfl (canonical_setDdram_masked b) (encDdram_of_bits h7)
  next h7 =>
  split
  · next h6 => exact commandReading_ok rfl (canonical_setCgram_masked b) (encCgram_of_bits h7 h6)
  next h6 =>
  split
  · next h5 =>
    split
    · next hspare => exact neverSent_of_function_spare h7 h6 h5 hspare
    next hspare =>
    split
    · next h4 => exact neverSent_of_function_width h7 h6 h5 hspare h4
    · next h4 => exact commandReading_ok rfl rfl (encFunction_of_bits h7 h6 h5 hspare h4)
  next h5 =>
  split
  · next h4 =>
    split
    · next hspare => exact neverSent_of_shift_spare h7 h6 h5 h4 hspare
    next hspare =>
    split
    · next h3 => exact commandReading_ok rfl rfl (encShiftDisplay_of_bits h7 h6 h5 h4 hspare h3)
    · next h3 => exact commandReading_ok rfl rfl (encShiftCursor_of_bits h7 h6 h5 h4 hspare h3)
  next h4 =>
  split
  · next h3 => exact commandReading_ok rfl rfl (encDisplay_of_bits h7 h6 h5 h4 h3)
  next h3 =>
  split
  · next h2 => exact commandReading_ok rfl rfl (encEntry_of_bits h7 h6 h5 h4 h3 h2)
  next h2 =>
  split
  · next h1 =>
    split
    · next h0 => exact neverSent_of_home_spare h7 h6 h5 h4 h3 h2 h1 h0
    · next h0 => exact commandReading_ok rfl rfl (encHome_of_bits h7 h6 h5 h4 h3 h2 h1 h0)
  next h1 =>
  split
  · next h0 => exact commandReading_ok rfl rfl (encClear_of_bits h7 h6 h5 h4 h3 h2 h1 h0)
  · next h0 => exact neverSent_of_no_opcode h7 h6 h5 h4 h3 h2 h1 h0

/-- From 0x40 on every byte is an address command's (R68, R69, R73). -/
theorem neverSent_of_ge {w : Width} {b : Byte} (h : 0x40 ≤ b.toNat) : neverSent w b = false := by
  have hne {c : Byte} (hc : c.toNat < 0x40) : b ≠ c := fun hbc => absurd (hbc ▸ h) (Nat.not_le.2 hc)
  have h1F : ¬ b.toNat ≤ 0x1F := by omega
  have h3F : ¬ b.toNat ≤ 0x3F := by omega
  cases w <;> simp [neverSent, hne, h1F, h3F]

/-- The encoder gives no byte that R73 lists: the commands without an address are few, and an address command's byte is
above the list. -/
theorem neverSent_of_encodeWord {w : Width} {i : Instr} {b : Byte} (h : encodeWord w i = some ⟨false, b⟩) :
    neverSent w b = false := by
  cases i with
  | clear | home => cases h; cases w <;> rfl
  | entry dir shift => cases h; cases w <;> cases dir <;> cases shift <;> rfl
  | display d c b => cases h; cases w <;> cases d <;> cases c <;> cases b <;> rfl
  | shiftCursor dir | shiftDisplay dir => cases h; cases w <;> cases dir <;> rfl
  | function lines grid => cases h; cases w <;> cases lines <;> cases grid <;> rfl
  | setCgram a => cases h; exact neverSent_of_ge (le_toNat_encCgram a)
  | setDdram a => cases h; exact neverSent_of_ge (Nat.le_trans (by decide) (le_toNat_encDdram a))
  | write | writeSeq | glyph | cursor | writeAt | init => cases h

/-- The decoder reads every word as an instruction that the encoder sends as that word, with operands that fit (R72). -/
theorem encodeWord_of_decodeWord {w : Width} {x : BusWord} {i : Instr} (h : decodeWord w x = .ok i) :
    encodeWord w i = some x ∧ i.canonical = i := by
  obtain ⟨rs, b⟩ := x
  cases rs with
  | true => cases h; exact ⟨rfl, rfl⟩
  | false =>
    have hread := decodeCommand_reading w b
    rwa [show decodeCommand w b = .ok i from h] at hread

/-- The decoder refuses exactly the command bytes that R73 lists. -/
theorem decodeWord_error_iff {w : Width} {x : BusWord} :
    (∃ r, decodeWord w x = .error r) ↔ x.rs = false ∧ neverSent w x.byte = true := by
  obtain ⟨rs, b⟩ := x
  cases rs with
  | true => simp [decodeWord]
  | false =>
    have hread := decodeCommand_reading w b
    cases hdecode : decodeCommand w b with
    | error r =>
      rw [hdecode] at hread
      exact ⟨fun _ => ⟨rfl, hread⟩, fun _ => ⟨r, hdecode⟩⟩
    | ok i =>
      rw [hdecode] at hread
      simp [decodeWord, hdecode, neverSent_of_encodeWord hread.1]

/-- Of a DDRAM byte the decoder reads the address without the absorbed bit 7 (R89). -/
theorem decodeCommand_encDdram (w : Width) (a : Byte) :
    decodeCommand w (encDdram a) = .ok (.setDdram (a &&& 0x7F)) := by
  have h7 : (encDdram a).getLsbD 7 = true := by simp [encDdram]
  have haddr : encDdram a &&& 0x7F = a &&& 0x7F := by simp [encDdram, byte_eq_iff]
  rw [decodeCommand, if_pos h7, haddr]

/-- Of a CGRAM byte the decoder reads the masked address (R88). -/
theorem decodeCommand_encCgram (w : Width) (a : Byte) :
    decodeCommand w (encCgram a) = .ok (.setCgram (a &&& 0x3F)) := by
  have h7 : ¬ (encCgram a).getLsbD 7 = true := by simp [encCgram]
  have h6 : (encCgram a).getLsbD 6 = true := by simp [encCgram]
  have haddr : encCgram a &&& 0x3F = a &&& 0x3F := by simp [encCgram, byte_eq_iff]
  rw [decodeCommand, if_neg h7, if_pos h6, haddr]

/-- The word of an instruction decodes to it, with the mask and the absorption made plain (R72, R88, R89). -/
theorem decodeWord_of_encodeWord {w : Width} {i : Instr} {x : BusWord} (h : encodeWord w i = some x) :
    decodeWord w x = .ok i.canonical := by
  cases i with
  | clear | home => cases h; rfl
  | entry dir shift => cases h; cases dir <;> cases shift <;> rfl
  | display d c b => cases h; cases d <;> cases c <;> cases b <;> rfl
  | shiftCursor dir | shiftDisplay dir => cases h; cases dir <;> rfl
  | function lines grid => cases h; cases w <;> cases lines <;> cases grid <;> rfl
  | setCgram a => cases h; exact decodeCommand_encCgram w a
  | setDdram a => cases h; exact decodeCommand_encDdram w a
  | write b => cases h; rfl
  | writeSeq | glyph | cursor | writeAt | init => cases h

/-- A row with a word expands into itself, so its words are that one (R60, R77). -/
theorem encode_of_encodeWord {w : Width} {i : Instr} {x : BusWord} (h : encodeWord w i = some x) :
    encode w i = [x] := by
  cases i with
  | writeSeq | glyph | cursor | writeAt | init => cases h
  | _ => cases h; rfl

/-- A row with a word has it on either width (R60). -/
theorem exists_encodeWord {i : Instr} (h : i.hasWord = true) (w : Width) : ∃ x, encodeWord w i = some x := by
  cases i with
  | writeSeq | glyph | cursor | writeAt | init => cases h
  | _ => exact ⟨_, rfl⟩

/-- A mask of ones leaves an address that has no bit above it. -/
theorem byte_and_mask_of_lt {a mask : Byte} {n : Nat} (hmask : mask.toNat = 2 ^ n - 1) (ha : a.toNat < 2 ^ n) :
    a &&& mask = a := by
  apply BitVec.eq_of_toNat_eq
  rw [BitVec.toNat_and, hmask, Nat.and_two_pow_sub_one_eq_mod, Nat.mod_eq_of_lt ha]

/-- Operands that fit their fields are not changed by the mask and the absorption (R88, R89). -/
theorem canonical_of_operandsFit {i : Instr} (h : i.operandsFit = true) : i.canonical = i := by
  cases i with
  | setCgram a => rw [Instr.canonical, byte_and_mask_of_lt (n := 6) rfl (of_decide_eq_true h)]
  | setDdram a => rw [Instr.canonical, byte_and_mask_of_lt (n := 7) rfl (of_decide_eq_true h)]
  | _ => rfl

/-- The bits of a bus word: the byte's, then RS as bit 8 (R6). -/
theorem getLsbD_bits (x : BusWord) (k : Nat) :
    x.bits.getLsbD k = if k < 8 then x.byte.getLsbD k else (BitVec.ofBool x.rs).getLsbD (k - 8) :=
  BitVec.getLsbD_append

/-- The nine bits of a bus word name it in the table. -/
theorem busWordOfNat_bits (x : BusWord) : busWordOfNat 9 x.bits.toNat = some x := by
  have hlt : x.bits.toNat < 512 := x.bits.isLt
  have hrs : x.bits.toNat.testBit 8 = x.rs := by
    rw [BitVec.testBit_toNat, getLsbD_bits]
    cases x.rs <;> simp
  have hbyte : BitVec.ofNat 8 x.bits.toNat = x.byte := by
    rw [BitVec.ofNat_toNat]
    ext k hk
    simp [getLsbD_bits, hk]
  simp only [busWordOfNat, Nat.reducePow, Nat.mod_eq_of_lt hlt, hlt, hrs, hbyte, if_true]

/-- A table word reads as the instruction it is sent for: only FUNCTION depends on the width, and its byte decodes on one
width alone (R67, log 4). -/
theorem decodeTableWord_bits {w : Width} {x : BusWord} {i : Instr} (hx : encodeWord w i = some x)
    (hfit : i.canonical = i) : decodeTableWord 9 x.bits.toNat = some i := by
  have hfour (h4 : encodeWord .four i = some x) : decodeTableWord 9 x.bits.toNat = some i := by
    simp only [decodeTableWord, busWordOfNat_bits, decodeWord_of_encodeWord h4, hfit]
  cases w with
  | four => exact hfour hx
  | eight =>
    cases i with
    | function lines grid => cases hx; cases lines <;> cases grid <;> rfl
    | _ => exact hfour hx

/-- Settles O21: a well-formed instruction has one word and is its own canonical form, which is what its word decodes to. -/
theorem decodeOfEncodeIsTheInstruction : Obligations.DecodeOfEncodeIsTheInstruction := by
  intro w i hwf
  obtain ⟨hword, hoperands⟩ := Bool.and_eq_true_iff.1 hwf
  obtain ⟨x, hx⟩ := exists_encodeWord hword w
  have hfit := canonical_of_operandsFit hoperands
  exact ⟨x, encode_of_encodeWord hx, hfit ▸ decodeWord_of_encodeWord hx, decodeTableWord_bits hx hfit⟩

/-- Settles O22: the decoder reads every byte rightly, by its highest set bit. -/
theorem decoderAcceptsExactlyTheSentWords : Obligations.DecoderAcceptsExactlyTheSentWords :=
  fun _ _ => ⟨fun _ => encodeWord_of_decodeWord, decodeWord_error_iff⟩

/-- Settles O19: one word decodes to one instruction, the canonical form of both. -/
theorem encoderIsInjective : Obligations.EncoderIsInjective := fun _ _ _ _ hi hj =>
  Except.ok.inj ((decodeWord_of_encodeWord hi).symm.trans (decodeWord_of_encodeWord hj))

/-- Settles O20: a word of an instruction is the word of a row, and of the other bytes the decoder reads the instruction
that sends them. -/
theorem neverSentBytesAreNeverSent : Obligations.NeverSentBytesAreNeverSent := by
  refine ⟨fun w i x hx hrs => ?_, fun w b hb => ?_, fun _ _ => rfl⟩
  · obtain ⟨j, -, hj⟩ := List.mem_filterMap.1 hx
    obtain ⟨rs, b⟩ := x
    subst hrs
    exact neverSent_of_encodeWord hj
  · cases hdecode : decodeWord w ⟨false, b⟩ with
    | ok i => exact ⟨i, encode_of_encodeWord (encodeWord_of_decodeWord hdecode).1⟩
    | error r =>
      have hnever := (decodeWord_error_iff.1 ⟨r, hdecode⟩).2
      rw [hb] at hnever
      cases hnever

/-- Settles O17: the fields are few, and each byte is computed. -/
theorem parameterFieldBytes : Obligations.ParameterFieldBytes := by
  unfold Obligations.ParameterFieldBytes
  decide

/-- Settles O24: the decoder computes each word. -/
theorem wordsDecodeAsWritten : Obligations.WordsDecodeAsWritten := by
  unfold Obligations.WordsDecodeAsWritten
  decide

/-- Settles O18: the commands without an address are few; an address command's byte has its opcode bit and is below the
next power of two. -/
theorem opcodeIsHighestBit : Obligations.OpcodeIsHighestBit := by
  intro w i x o hx ho
  cases i with
  | clear | home => cases hx; cases ho; decide
  | entry dir shift => cases hx; cases ho; cases dir <;> cases shift <;> decide
  | display d c b => cases hx; cases ho; cases d <;> cases c <;> cases b <;> decide
  | shiftCursor dir | shiftDisplay dir => cases hx; cases ho; cases dir <;> decide
  | function lines grid => cases hx; cases ho; cases w <;> cases lines <;> cases grid <;> decide
  | setCgram a =>
    cases hx; cases ho
    exact ⟨rfl, by simp [encCgram, byte_eq_iff], toNat_encCgram_lt a⟩
  | setDdram a =>
    cases hx; cases ho
    exact ⟨rfl, by simp [encDdram, byte_eq_iff], BitVec.isLt _⟩
  | write | writeSeq | glyph | cursor | writeAt | init => cases ho

/-- No word is in two rows whose match bits differ on a bit that both masks look at. -/
theorem not_covers_both {r q : OpcodeRow} (h : r.matchBits &&& q.mask ≠ q.matchBits &&& r.mask) (x : BusWord) :
    ¬ (r.covers x = true ∧ q.covers x = true) := by
  rintro ⟨hr, hq⟩
  have hr : x.bits &&& r.mask = r.matchBits := eq_of_beq hr
  have hq : x.bits &&& q.mask = q.matchBits := eq_of_beq hq
  exact h (by rw [← hr, ← hq, BitVec.and_assoc, BitVec.and_assoc, BitVec.and_comm r.mask])

/-- Every two rows of the table differ on a bit that both masks look at. -/
theorem opcodeRows_pairwise_differ :
    opcodeRows.Pairwise (fun r q => r.matchBits &&& q.mask ≠ q.matchBits &&& r.mask) := by
  decide

/-- A word is in a row when each of its nine bits is as the row says. -/
theorem covers_of_bits {r : OpcodeRow} {x : BusWord}
    (h : ∀ k < 9, (x.bits.getLsbD k && r.mask.getLsbD k) = r.matchBits.getLsbD k) : r.covers x = true :=
  beq_of_eq (BitVec.eq_of_getLsbD_eq fun k hk => (BitVec.getLsbD_and ..).trans (h k hk))

/-- To find the row of a word, give its place in the table. -/
theorem exists_row_of_covers {i : Instr} {x : BusWord} (k : Fin opcodeRows.length)
    (hname : opcodeRows[k].mnemonic = i.mnemonic) (hcovers : opcodeRows[k].covers x = true) :
    ∃ r ∈ opcodeRows, r.mnemonic = i.mnemonic ∧ r.covers x = true :=
  ⟨opcodeRows[k], List.getElem_mem k.isLt, hname, hcovers⟩

/-- The word of an instruction is in the row that has the instruction's name (R62 to R69). -/
theorem exists_row_of_encodeWord {w : Width} {i : Instr} {x : BusWord} (h : encodeWord w i = some x) :
    ∃ r ∈ opcodeRows, r.mnemonic = i.mnemonic ∧ r.covers x = true := by
  cases i with
  | clear => cases h; exact exists_row_of_covers ⟨0, by decide⟩ rfl rfl
  | home => cases h; exact exists_row_of_covers ⟨1, by decide⟩ rfl rfl
  | entry dir shift =>
    cases h
    exact exists_row_of_covers ⟨2, by decide⟩ rfl (by cases dir <;> cases shift <;> rfl)
  | display d c b =>
    cases h
    exact exists_row_of_covers ⟨3, by decide⟩ rfl (by cases d <;> cases c <;> cases b <;> rfl)
  | shiftCursor dir => cases h; exact exists_row_of_covers ⟨4, by decide⟩ rfl (by cases dir <;> rfl)
  | shiftDisplay dir => cases h; exact exists_row_of_covers ⟨5, by decide⟩ rfl (by cases dir <;> rfl)
  | function lines grid =>
    cases h
    exact exists_row_of_covers ⟨6, by decide⟩ rfl (by cases w <;> cases lines <;> cases grid <;> rfl)
  | setCgram a =>
    cases h
    refine exists_row_of_covers ⟨7, by decide⟩ rfl (covers_of_bits fun k hk => ?_)
    rw [getLsbD_bits]
    interval_cases k <;> simp [encCgram, opcodeRows]
  | setDdram a =>
    cases h
    refine exists_row_of_covers ⟨8, by decide⟩ rfl (covers_of_bits fun k hk => ?_)
    rw [getLsbD_bits]
    interval_cases k <;> simp [encDdram, opcodeRows]
  | write b =>
    cases h
    refine exists_row_of_covers ⟨9, by decide⟩ rfl (covers_of_bits fun k hk => ?_)
    rw [getLsbD_bits]
    interval_cases k <;> simp [opcodeRows]
  | writeSeq | glyph | cursor | writeAt | init => cases h

/-- Settles O23: two rows differ where both look, and each word is in the row of its name. -/
theorem opcodeRowsAreDisjoint : Obligations.OpcodeRowsAreDisjoint :=
  ⟨opcodeRows_pairwise_differ.imp not_covers_both, fun _ _ _ => exists_row_of_encodeWord⟩

end Sys2Proof
end

section
/-! An operation as the words it sends and its extra sleep: what it leaves on the pins, what it sleeps and counts, and what
the controller latches of it (R55). The statements about whole operations settled. -/

namespace Sys2Proof

section Words

variable (w : Width)

/-- The words of an operation are those of the rows it expands into, one for each (R77). -/
theorem map_some_encode (i : Instr) : (encode w i).map some = i.expand.map (encodeWord w) := by
  cases i with
  | clear => exact Laws.Expansion.clear w
  | home => exact Laws.Expansion.home w
  | entry dir shift => exact Laws.Expansion.entry dir shift w
  | display d c b => exact Laws.Expansion.display d c b w
  | shiftCursor dir => exact Laws.Expansion.shiftCursor dir w
  | shiftDisplay dir => exact Laws.Expansion.shiftDisplay dir w
  | function lines grid => exact Laws.Expansion.function lines grid w
  | setCgram a => exact Laws.Expansion.setCgram a w
  | setDdram a => exact Laws.Expansion.setDdram a w
  | write b => exact Laws.Expansion.write b w
  | writeSeq bs => exact Laws.Expansion.writeSeq bs w
  | glyph id rows => exact Laws.Expansion.glyph id rows w
  | cursor row col => exact Laws.Expansion.cursor row col w
  | writeAt row col bs => exact Laws.Expansion.writeAt row col bs w
  | init => exact Laws.Expansion.init w

theorem length_encode (i : Instr) : (encode w i).length = i.expand.length := by
  simpa using congrArg List.length (map_some_encode w i)

/-- The events of a list of words, one after the other (R60). -/
def sendWords (xs : List BusWord) : List Event := xs.flatMap (sendWord w)

@[simp] theorem sendWords_nil : sendWords w [] = [] := rfl
@[simp] theorem sendWords_cons (x : BusWord) (xs : List BusWord) :
    sendWords w (x :: xs) = sendWord w x ++ sendWords w xs := rfl
theorem sendWords_append (xs ys : List BusWord) : sendWords w (xs ++ ys) = sendWords w xs ++ sendWords w ys :=
  List.flatMap_append

theorem sendWords_map_data (bs : List Byte) : sendWords w (bs.map (BusWord.mk true)) = bs.flatMap (dataSend w) :=
  List.flatMap_map ..

/-! The words of the composites, written out (R133 to R136). -/

theorem encode_writeSeq (bs : List Byte) : encode w (.writeSeq bs) = bs.map (BusWord.mk true) :=
  (List.filterMap_map ..).trans (congrFun (List.filterMap_eq_map (f := BusWord.mk true)) bs)

theorem encode_glyph (id : Byte) (rows : List Byte) :
    encode w (.glyph id rows) = ⟨false, encCgram (glyphAddress id)⟩ :: rows.map (BusWord.mk true) :=
  congrArg (List.cons _) (encode_writeSeq w rows)

theorem encode_cursor (row col : Byte) : encode w (.cursor row col) = [⟨false, encDdram (cursorAddress row col)⟩] := rfl

theorem encode_writeAt (row col : Byte) (bs : List Byte) :
    encode w (.writeAt row col bs) = ⟨false, encDdram (cursorAddress row col)⟩ :: bs.map (BusWord.mk true) :=
  congrArg (List.cons _) (encode_writeSeq w bs)

/-- An operation sends its words in order, and then sleeps its extra time (R122, R137). -/
theorem eventsOf_eq_sendWords {i : Instr} (hc : i.hostCallable = true) :
    Machine.eventsOf w i = sendWords w (encode w i) ++ i.settleEvents := by
  cases i with
  | init => cases hc
  | writeSeq bs =>
    rw [encode_writeSeq, sendWords_map_data]
    exact (List.append_nil _).symm
  | glyph id rows =>
    rw [encode_glyph, sendWords_cons, sendWords_map_data]
    exact (List.append_nil _).symm
  | writeAt row col bs =>
    rw [encode_writeAt, sendWords_cons, sendWords_map_data]
    exact (List.append_nil _).symm
  | cursor row col =>
    rw [encode_cursor, sendWords_cons, sendWords_nil]
    exact (List.append_nil _).symm.trans (List.append_nil _).symm
  | _ =>
    rw [encode_of_encodeWord rfl, sendWords_cons, sendWords_nil, List.append_nil]
    exact eventsOf_of_word rfl

end Words

section Pins

/-- No word drives R/W, so no list of them changes its level (R107, R138). -/
theorem applyAll_sendWords_rw (w : Width) (lv : Levels) (xs : List BusWord) :
    (lv.applyAll (sendWords w xs)).rw = lv.rw :=
  lv.applyAll_rw _ fun ev hev v hset => by
    obtain ⟨x, -, hx⟩ := List.mem_flatMap.1 hev
    have hrw := (isRw_and_wellFormed_of_mem_sendWord hx).1
    rw [hset] at hrw
    cases hrw

/-- A list of words leaves its last word on the pins, E low, and R/W as it was (R120, R121). -/
theorem applyAll_sendWords_of_getLast {w : Width} {lv : Levels} (h : lv.fits w = true) {xs : List BusWord} {x : BusWord}
    (hx : xs.getLast? = some x) :
    lv.applyAll (sendWords w xs) = ⟨Level.ofBool x.rs, lv.rw, .low, linesOf w x.byte⟩ := by
  obtain ⟨ys, rfl⟩ := List.getLast?_eq_some_iff.1 hx
  rw [sendWords_append, Levels.applyAll_append, sendWords_cons, sendWords_nil, List.append_nil,
    applyAll_sendWord (fits_applyAll h _), applyAll_sendWords_rw]

/-- An operation does to the pins what its words do: its extra sleep drives none (R26, R137). -/
theorem applyAll_eventsOf {i : Instr} (hc : i.hostCallable = true) (w : Width) (lv : Levels) :
    lv.applyAll (Machine.eventsOf w i) = lv.applyAll (sendWords w (encode w i)) := by
  rw [eventsOf_eq_sendWords w hc, Levels.applyAll_append, applyAll_settle]

/-- Settles O42: the pins after an operation are those after its last word, and as before if it sends none. -/
theorem operationsLeaveTheirLastWordOnThePins : Obligations.OperationsLeaveTheirLastWordOnThePins := by
  intro i s t hs hfits h
  obtain ⟨hc, rfl⟩ := Machine.exec_next_of_idle hs h
  rw [Machine.emitAll_lv, applyAll_eventsOf hc]
  constructor
  · intro x hx
    rw [applyAll_sendWords_of_getLast hfits hx]
    have hlen : s.lv.data.length = s.width.lines := of_decide_eq_true hfits
    exact ⟨rfl, rfl, rfl, by simp [linesOf, hlen], fun k hk => getElem?_linesOf x.byte hk⟩
  · intro hnone
    rw [hnone, sendWords_nil, Levels.applyAll_nil]

end Pins

section Totals

variable (w : Width) (xs : List BusWord)

theorem length_sendWords : (sendWords w xs).length = (1 + w.transfersPerByte * (w.lines + 4)) * xs.length := by
  induction xs with
  | nil => rfl
  | cons x xs ih => rw [sendWords_cons, List.length_append, length_sendWord, ih, List.length_cons]; ring

theorem pulseCount_sendWords : pulseCount (sendWords w xs) = w.transfersPerByte * xs.length := by
  induction xs with
  | nil => rfl
  | cons x xs ih => rw [sendWords_cons, pulseCount_append, pulseCount_sendWord, ih, List.length_cons]; ring

theorem requestedSleep_sendWords :
    requestedSleep (sendWords w xs) = 101 * w.transfersPerByte * xs.length := by
  induction xs with
  | nil => rfl
  | cons x xs ih => rw [sendWords_cons, requestedSleep_append, requestedSleep_sendWord, ih, List.length_cons]; ring

/-- The sleeps of a list of words are those of its pulses (R100). -/
theorem sleepsOf_sendWords :
    sleepsOf (sendWords w xs) = (List.replicate (pulseCount (sendWords w xs)) [1, 100]).flatten := by
  induction xs with
  | nil => rfl
  | cons x xs ih =>
    rw [sendWords_cons, sleepsOf_append, pulseCount_append, List.replicate_add, List.flatten_append, ← ih,
      sleepsOf_sendWord, pulseCount_sendWord]

/-- Only CLEAR and HOME have an extra sleep (R137). -/
theorem settleEvents_eq (i : Instr) : i.settleEvents = if i = .clear ∨ i = .home then [.sleep 2000] else [] := by
  cases i with
  | clear | home => rfl
  | _ => exact (if_neg (by simp)).symm

end Totals

/-- Settles O47: the words sleep as their pulses do, and the extra sleep comes after them. -/
theorem onlyClearAndHomeSleepLonger : Obligations.OnlyClearAndHomeSleepLonger := by
  intro w i hi
  have hc := Machine.hostCallable_of_ne_init hi
  rw [eventsOf_eq_sendWords w hc, sleepsOf_append, pulseCount_append, sleepsOf_sendWords, settleEvents_eq]
  split <;> rfl

/-- The counts and totals of one byte are those of its word: register-select adds one event, no pulse and no sleep
(R108). -/
theorem writeByte_totals (w : Width) (b : Byte) :
    (writeByte w b).length = w.transfersPerByte * (w.lines + 4) ∧ pulseCount (writeByte w b) = w.transfersPerByte ∧
      requestedSleep (writeByte w b) = 101 * w.transfersPerByte := by
  have hword : sendWord w ⟨false, b⟩ = .set .rs false :: writeByte w b := rfl
  have hlen := length_sendWord w ⟨false, b⟩
  have hpulse := pulseCount_sendWord w ⟨false, b⟩
  have hsleep := requestedSleep_sendWord w ⟨false, b⟩
  rw [hword] at hlen hpulse hsleep
  refine ⟨by simpa [Nat.add_comm] using hlen, by simpa [pulseCount] using hpulse, ?_⟩
  simpa [requestedSleep, Event.sleepUs] using hsleep

theorem writeNibble_totals (w : Width) (n : Nibble) :
    (writeNibble w n).length = w.lines + 4 ∧ pulseCount (writeNibble w n) = 1 ∧
      requestedSleep (writeNibble w n) = 101 := by
  cases w <;> exact ⟨rfl, rfl, rfl⟩

/-- The counts and totals of an operation: those of its words, one for each row of its expansion, and the extra sleep
(R139, R219). -/
theorem eventsOf_totals {i : Instr} (hc : i.hostCallable = true) (w : Width) :
    (Machine.eventsOf w i).length = (1 + w.transfersPerByte * (w.lines + 4)) * i.expand.length +
        (if i = .clear ∨ i = .home then 1 else 0) ∧
      pulseCount (Machine.eventsOf w i) = w.transfersPerByte * i.expand.length ∧
      requestedSleep (Machine.eventsOf w i) = 101 * w.transfersPerByte * i.expand.length +
        (if i = .clear ∨ i = .home then 2000 else 0) := by
  rw [eventsOf_eq_sendWords w hc, List.length_append, pulseCount_append, requestedSleep_append, length_sendWords,
    pulseCount_sendWords, requestedSleep_sendWords, length_encode, settleEvents_eq]
  split <;> exact ⟨rfl, rfl, rfl⟩

/-- Settles O48, by the totals of a byte, a nibble and an operation on either width. -/
theorem eventCountsAndSleepTotals : Obligations.EventCountsAndSleepTotals := by
  refine ⟨fun b => ?_, fun n => ?_, fun i hi k hk => ?_⟩
  · obtain ⟨hlen8, hpulse8, hsleep8⟩ := writeByte_totals .eight b
    obtain ⟨hlen4, hpulse4, hsleep4⟩ := writeByte_totals .four b
    exact ⟨hlen8, hpulse8, hsleep8, hlen4, hpulse4, hsleep4⟩
  · obtain ⟨hlen8, hpulse8, hsleep8⟩ := writeNibble_totals .eight n
    obtain ⟨hlen4, hpulse4, hsleep4⟩ := writeNibble_totals .four n
    exact ⟨hlen8, hpulse8, hsleep8, hlen4, hpulse4, hsleep4⟩
  · subst hk
    have hc := Machine.hostCallable_of_ne_init hi
    obtain ⟨hlen8, hpulse8, hsleep8⟩ := eventsOf_totals hc .eight
    obtain ⟨hlen4, hpulse4, hsleep4⟩ := eventsOf_totals hc .four
    exact ⟨hlen8, hlen4, hpulse8.trans (Nat.one_mul _), hpulse4, hsleep8, hsleep4⟩

section Hazards

theorem hazardFree_sendWords (w : Width) (xs : List BusWord) : hazardFree (sendWords w xs) = true := by
  induction xs with
  | nil => rfl
  | cons x xs ih => exact hazardFree_append (hazardFree_sendWord w x) ih

/-- An operation meets the pulse-width and recovery rules (R206, R207). -/
theorem hazardFree_eventsOf {i : Instr} (hc : i.hostCallable = true) (w : Width) :
    hazardFree (Machine.eventsOf w i) = true := by
  rw [eventsOf_eq_sendWords w hc]
  exact hazardFree_append (hazardFree_sendWords w _) (hazardFree_settle i)

theorem hazardFree_flatMap_eventsOf {ops : List Instr} (hops : ∀ i ∈ ops, i.hostCallable = true) (w : Width) :
    hazardFree (ops.flatMap (Machine.eventsOf w)) = true := by
  induction ops with
  | nil => rfl
  | cons i ops ih =>
    rw [List.forall_mem_cons] at hops
    exact hazardFree_append (hazardFree_eventsOf hops.1 w) (ih hops.2)

end Hazards

section Latches

/-- The number on the lines that carry the low bits of a number is those bits (R55). -/
theorem linesValue_range (n x : Nat) :
    linesValue ((List.range n).map fun k => Level.ofBool (x.testBit k)) = some (x % 2 ^ n) := by
  induction n generalizing x with
  | zero => simp [linesValue, Nat.mod_one]
  | succ n ih =>
    have hrest := ih (x / 2)
    simp only [← Nat.testBit_succ] at hrest
    rw [List.range_succ_eq_map, List.map_cons, List.map_map, linesValue, bit?_ofBool]
    simp only [Function.comp_def, hrest]
    rw [Nat.toNat_testBit, pow_succ', Nat.mod_mul]
    simp

/-- What the lines that carry a byte read as: on W = 4 its low nibble (R42, R43). -/
theorem linesValue_linesOf (w : Width) (b : Byte) : linesValue (linesOf w b) = some (b.toNat % 2 ^ w.lines) :=
  linesValue_range w.lines b.toNat

/-- The bus word of a transfer whose lines carry a byte (R55). -/
theorem latchWord_linesOf (rs : Bool) (w : Width) (b : Byte) :
    Transfer.latchWord ⟨Level.ofBool rs, linesOf w b⟩ = some ⟨rs, b.toNat % 2 ^ w.lines⟩ := by
  simp only [Transfer.latchWord, bit?_ofBool, linesValue_linesOf]

/-- Transfers that each have their bus word are latched as these words, in order. -/
theorem latchWords_of_map {ts : List Transfer} {xs : List LatchWord}
    (h : ts.map Transfer.latchWord = xs.map some) : latchWords ts = .ok xs := by
  induction ts generalizing xs with
  | nil =>
    cases xs with
    | nil => rfl
    | cons x xs => cases h
  | cons t ts ih =>
    cases xs with
    | nil => cases h
    | cons x xs =>
      obtain ⟨ht, hts⟩ := List.cons.inj h
      simp only [latchWords, ht, ih hts]

/-- The latch words of one word: the byte on W = 8, its two nibbles on W = 4 (R75). -/
theorem map_latchWord_wordTransfers (w : Width) (x : BusWord) :
    (wordTransfers w x).map Transfer.latchWord = (wordLatches w x).map some := by
  cases w with
  | eight => simp [wordTransfers, wordLatches, latchWord_linesOf, Width.lines, Nat.mod_eq_of_lt x.byte.isLt]
  | four =>
    have hhigh := (highNibble x.byte).isLt
    simp [wordTransfers, wordLatches, latchWord_linesOf, Width.lines, lowNibble, Nat.mod_eq_of_lt hhigh]

/-- The transfers of whole operations, in order (R55). -/
def operationTransfers (w : Width) (ops : List Instr) : List Transfer :=
  (ops.flatMap (encode w)).flatMap (wordTransfers w)

/-- The latch view of whole operations, in order (R55, R75). -/
def operationLatches (w : Width) (ops : List Instr) : List LatchWord :=
  (ops.flatMap (encode w)).flatMap (wordLatches w)

theorem map_latchWord_operationTransfers (w : Width) (ops : List Instr) :
    (operationTransfers w ops).map Transfer.latchWord = (operationLatches w ops).map some := by
  simp only [operationTransfers, operationLatches, List.map_flatMap, map_latchWord_wordTransfers]

/-- Each word of a list is latched in turn, whatever comes after. -/
theorem transfersFrom_sendWords {w : Width} {lv : Levels} (h : lv.fits w = true) (xs : List BusWord)
    (rest : List Event) :
    transfersFrom lv (sendWords w xs ++ rest) =
      xs.flatMap (wordTransfers w) ++ transfersFrom (lv.applyAll (sendWords w xs)) rest := by
  induction xs generalizing lv with
  | nil => rfl
  | cons x xs ih =>
    rw [sendWords_cons, List.append_assoc, transfersFrom_sendWord h, ih (fits_applyAll h _), Levels.applyAll_append,
      List.flatMap_cons, List.append_assoc]

/-- Whole operations are latched word by word: their extra sleeps latch nothing. -/
theorem transfersFrom_eventsOf {w : Width} {lv : Levels} (h : lv.fits w = true) {ops : List Instr}
    (hops : ∀ i ∈ ops, i.hostCallable = true) :
    transfersFrom lv (ops.flatMap (Machine.eventsOf w)) = operationTransfers w ops := by
  induction ops generalizing lv with
  | nil => rfl
  | cons i ops ih =>
    rw [List.forall_mem_cons] at hops
    rw [List.flatMap_cons, eventsOf_eq_sendWords w hops.1, List.append_assoc, transfersFrom_sendWords h,
      transfersFrom_settle, ih (fits_applyAll h _) hops.2]
    simp only [operationTransfers, List.flatMap_cons, List.flatMap_append]

/-- A byte is its high nibble and then its low nibble (R42). -/
theorem joinNibbles_halves (b : Byte) : joinNibbles (highNibble b) (lowNibble b) = b := by
  refine BitVec.eq_of_getLsbD_eq fun k hk => ?_
  rw [joinNibbles, BitVec.getLsbD_append]
  interval_cases k <;> simp [highNibble, lowNibble]

/-- The latch view of words joins back into them: on W = 4 its nibbles pair up with one RS level each (R75). -/
theorem joinLatched_wordLatches (w : Width) (xs : List BusWord) :
    joinLatched w (xs.flatMap (wordLatches w)) = .ok xs := by
  induction xs with
  | nil => cases w <;> rfl
  | cons x xs ih =>
    cases w with
    | eight =>
      simp only [joinLatched] at ih ⊢
      simp [wordLatches, joinEight, ih]
    | four =>
      simp only [joinLatched] at ih ⊢
      simp [wordLatches, joinFour, ih, joinNibbles_halves]

/-- The words of a list of rows decode to those rows, with the mask and the absorption made plain (R72). -/
theorem decodeWords_of_map {w : Width} {xs : List BusWord} {js : List Instr} (h : xs.map some = js.map (encodeWord w)) :
    decodeWords w xs = .ok (js.map Instr.canonical) := by
  induction xs generalizing js with
  | nil =>
    cases js with
    | nil => rfl
    | cons j js => cases h
  | cons x xs ih =>
    cases js with
    | nil => cases h
    | cons j js =>
      obtain ⟨hj, hjs⟩ := List.cons.inj h
      simp only [decodeWords, decodeWord_of_encodeWord hj.symm, ih hjs, List.map_cons]

/-- The latch view of whole operations decodes to their expansions (R72, R77). -/
theorem decodeLatched_operationLatches (w : Width) (ops : List Instr) :
    decodeLatched w (operationLatches w ops) = .ok ((ops.flatMap Instr.expand).map Instr.canonical) := by
  have hwords : (ops.flatMap (encode w)).map some = (ops.flatMap Instr.expand).map (encodeWord w) := by
    simp only [List.map_flatMap, map_some_encode]
  simp only [decodeLatched, operationLatches, joinLatched_wordLatches, decodeWords_of_map hwords]

/-- Settles O57: each word of the operations is latched, joined and decoded in turn. -/
theorem latchViewDecodesToTheOperations : Obligations.LatchViewDecodesToTheOperations := by
  intro w lv ops hfits hops
  simp only [decodeEventsFrom, transfersFrom_eventsOf hfits hops, latchWords_of_map (map_latchWord_operationTransfers w ops),
    decodeLatched_operationLatches]

end Latches

section Edges

/-- Wherever the two readings of the rest agree, the two readings of these events and the rest agree (R55). -/
def LatchesAtBothEdges (evs : List Event) : Prop :=
  ∀ (lv : Levels) (rest : List Event),
    fallingTransfersFrom (lv.applyAll evs) rest = transfersFrom (lv.applyAll evs) rest →
    fallingTransfersFrom lv (evs ++ rest) = transfersFrom lv (evs ++ rest)

theorem latchesAtBothEdges_append {as bs : List Event} (ha : LatchesAtBothEdges as) (hb : LatchesAtBothEdges bs) :
    LatchesAtBothEdges (as ++ bs) := by
  intro lv rest h
  rw [Levels.applyAll_append] at h
  rw [List.append_assoc]
  exact ha lv _ (hb _ rest h)

theorem latchesAtBothEdges_flatMap {α : Type} {f : α → List Event} {xs : List α}
    (h : ∀ x ∈ xs, LatchesAtBothEdges (f x)) : LatchesAtBothEdges (xs.flatMap f) := by
  induction xs with
  | nil => exact fun _ _ => id
  | cons x xs ih =>
    rw [List.forall_mem_cons] at h
    exact latchesAtBothEdges_append h.1 (ih h.2)

/-- Only a `SET(E, 0)` ends a pulse: events without one only change the levels that the next falling edge finds (R55). -/
theorem fallingTransfersFrom_append_of_no_falling {as : List Event} (h : Event.set .e false ∉ as) (lv : Levels)
    (bs : List Event) : fallingTransfersFrom lv (as ++ bs) = fallingTransfersFrom (lv.applyAll as) bs := by
  induction as generalizing lv with
  | nil => rfl
  | cons ev as ih =>
    obtain ⟨hev, has⟩ := List.ne_and_not_mem_of_not_mem_cons h
    rw [List.cons_append, fallingTransfersFrom, if_neg hev.symm, ih has, Levels.applyAll_cons]

/-- Events that do not move E latch at neither edge. -/
theorem latchesAtBothEdges_of_no_enable {evs : List Event} (h : ∀ v, Event.set .e v ∉ evs) :
    LatchesAtBothEdges evs := by
  intro lv rest hrest
  rw [fallingTransfersFrom_append_of_no_falling (h false), transfersFrom_append_of_no_rising (h true), hrest]

/-- A pulse latches once, at the levels it finds, whatever comes after (R100). -/
theorem transfersFrom_pulse_append (lv : Levels) (rest : List Event) :
    transfersFrom lv (pulse ++ rest) = lv.transfer :: transfersFrom (lv.applyAll pulse) rest := by
  simp [transfersFrom, pulse]

/-- A pulse moves neither RS nor a data line, so it latches the same at both edges (R100). -/
theorem latchesAtBothEdges_pulse : LatchesAtBothEdges pulse := by
  intro lv rest h
  rw [transfersFrom_pulse_append, ← h]
  simp [fallingTransfersFrom, pulse, Levels.transfer]

theorem latchesAtBothEdges_drive_pulse {evs : List Event} (h : ∀ v, Event.set .e v ∉ evs) :
    LatchesAtBothEdges (evs ++ pulse) :=
  latchesAtBothEdges_append (latchesAtBothEdges_of_no_enable h) latchesAtBothEdges_pulse

theorem latchesAtBothEdges_writeNibble (w : Width) (n : Nibble) : LatchesAtBothEdges (writeNibble w n) := by
  cases w with
  | four => exact latchesAtBothEdges_drive_pulse (by simp [driveFour])
  | eight => exact latchesAtBothEdges_drive_pulse (by simp [driveEight])

theorem latchesAtBothEdges_writeByte (w : Width) (b : Byte) : LatchesAtBothEdges (writeByte w b) := by
  cases w with
  | four =>
    exact latchesAtBothEdges_append (latchesAtBothEdges_writeNibble .four _) (latchesAtBothEdges_writeNibble .four _)
  | eight => exact latchesAtBothEdges_drive_pulse (by simp [driveEight])

theorem latchesAtBothEdges_sendWord (w : Width) (x : BusWord) : LatchesAtBothEdges (sendWord w x) :=
  latchesAtBothEdges_append (latchesAtBothEdges_of_no_enable (by simp)) (latchesAtBothEdges_writeByte w x.byte)

theorem latchesAtBothEdges_settle (i : Instr) : LatchesAtBothEdges i.settleEvents :=
  latchesAtBothEdges_of_no_enable (by rw [settleEvents_eq]; split <;> simp)

/-- The moves of the initialization are nibble transfers and single SETs of other pins than E (R160). -/
theorem latchesAtBothEdges_initAction (w : Width) (st : Machine.InitStep) :
    LatchesAtBothEdges (Machine.initAction w st) := by
  cases st with
  | s0 | s4 | done => exact latchesAtBothEdges_of_no_enable (by simp [Machine.initAction])
  | s1 | s2 => exact latchesAtBothEdges_writeNibble w 0x3
  | s3 =>
    cases w with
    | four => exact latchesAtBothEdges_writeNibble .four 0x2
    | eight => exact latchesAtBothEdges_of_no_enable (by simp [Machine.initAction])

theorem latchesAtBothEdges_initEvents (w : Width) : LatchesAtBothEdges (Machine.initEvents w) := by
  have hmove := latchesAtBothEdges_initAction w
  exact latchesAtBothEdges_append (latchesAtBothEdges_append (latchesAtBothEdges_append
    (latchesAtBothEdges_append (hmove .s0) (hmove .s1)) (hmove .s2)) (hmove .s3)) (hmove .s4)

theorem latchesAtBothEdges_eventsOf (w : Width) (i : Instr) : LatchesAtBothEdges (Machine.eventsOf w i) := by
  by_cases hi : i = .init
  · subst hi
    exact latchesAtBothEdges_initEvents w
  · rw [eventsOf_eq_sendWords w (Machine.hostCallable_of_ne_init hi)]
    exact latchesAtBothEdges_append (latchesAtBothEdges_flatMap fun x _ => latchesAtBothEdges_sendWord w x)
      (latchesAtBothEdges_settle i)

/-- Settles O59: every move of E in an operation or the initialization is part of a pulse. -/
theorem latchDoesNotDependOnTheEdge : Obligations.LatchDoesNotDependOnTheEdge := by
  intro w lv ops
  have h := latchesAtBothEdges_flatMap (fun i (_ : i ∈ ops) => latchesAtBothEdges_eventsOf w i) lv [] rfl
  rwa [List.append_nil] at h

end Edges

end Sys2Proof
end

section
/-! The initialization: what one move and all five moves of its state machine do (R160 to R167), the levels that its nibbles
leave, and the statements about construction and initialization settled. -/

namespace Sys2Proof

section Nibbles

/-- The levels of a nibble transfer on the lines, as a byte: on W = 8 the nibble is on D7..D4 above zeros (R44, R103). -/
def nibbleOnLines : Width → Nibble → Byte
  | .four, n => n.setWidth 8
  | .eight, n => n.setWidth 8 <<< 4

/-- Driving the four lines puts bit i on Di and changes no other pin (R104). -/
theorem applyAll_driveFour {lv : Levels} (h : lv.fits .four = true) (n : Nibble) :
    lv.applyAll (driveFour n) = { lv with data := linesOf .four (n.setWidth 8) } := by
  obtain ⟨d0, d1, d2, d3, hdata⟩ := eq_four_of_fits h
  simp [driveFour, Levels.drive, hdata, linesOf, Width.lines, List.range, List.range.loop]

/-- A nibble transfer leaves its nibble on the lines and E low, and changes neither RS nor R/W (R103, R104). -/
theorem applyAll_writeNibble {w : Width} {lv : Levels} (h : lv.fits w = true) (n : Nibble) :
    lv.applyAll (writeNibble w n) = { lv with data := linesOf w (nibbleOnLines w n), e := .low } := by
  cases w with
  | four =>
    rw [writeNibble, t4WriteNibble, Levels.applyAll_append, applyAll_driveFour h, applyAll_pulse, nibbleOnLines]
  | eight =>
    rw [writeNibble, t8WriteNibble, Levels.applyAll_append, applyAll_driveEight h, applyAll_pulse, nibbleOnLines]

/-- A nibble transfer latches once, whatever comes after (R103, R104). -/
theorem transfersFrom_writeNibble {w : Width} {lv : Levels} (h : lv.fits w = true) (n : Nibble) (rest : List Event) :
    transfersFrom lv (writeNibble w n ++ rest) =
      ⟨lv.rs, linesOf w (nibbleOnLines w n)⟩ :: transfersFrom (lv.applyAll (writeNibble w n)) rest := by
  cases w with
  | four =>
    rw [writeNibble, t4WriteNibble, List.append_assoc, transfersFrom_append_of_no_rising (rising_not_mem_driveFour n),
      transfersFrom_pulse_append, Levels.applyAll_append, applyAll_driveFour h, Levels.transfer, nibbleOnLines]
  | eight =>
    rw [writeNibble, t8WriteNibble, List.append_assoc, transfersFrom_append_of_no_rising (rising_not_mem_driveEight _),
      transfersFrom_pulse_append, Levels.applyAll_append, applyAll_driveEight h, Levels.transfer, nibbleOnLines]

end Nibbles

namespace Machine

section Sequence

/-- The nibbles of the initialization (R163, R166). -/
def initNibbles : Width → List Nibble
  | .four => [0x3, 0x3, 0x2]
  | .eight => [0x3, 0x3]

/-- The whole initialization as its nibbles between its two pin events (R166). -/
theorem initEvents_eq (w : Width) :
    initEvents w = .set .rs false :: ((initNibbles w).flatMap (writeNibble w) ++ [.set .rw false]) := by
  cases w <;> rfl

/-- The last byte that the initialization leaves on the lines (R163, R166). -/
def initByte : Width → Byte
  | .four => 0x02
  | .eight => 0x30

theorem fits_drive {w : Width} {lv : Levels} (h : lv.fits w = true) (p : Pin) (v : Bool) :
    (lv.drive p v).fits w = true := fits_applyAll h [.set p v]

/-- The initialization leaves RS, R/W and E low and its last nibble on the lines (R33, R166). -/
theorem applyAll_initEvents {w : Width} {lv : Levels} (h : lv.fits w = true) :
    lv.applyAll (initEvents w) = ⟨.low, .low, .low, linesOf w (initByte w)⟩ := by
  have hfirst := fits_drive h .rs false
  rw [initEvents_eq, Levels.applyAll_cons, Levels.apply_set, Levels.applyAll_append]
  cases w <;>
    · simp only [initNibbles, List.flatMap_cons, Levels.applyAll_append, applyAll_writeNibble hfirst]
      rfl

/-- Each nibble of a list is latched in turn with the RS level that it finds, whatever comes after. -/
theorem transfersFrom_nibbles {w : Width} {lv : Levels} (h : lv.fits w = true) (ns : List Nibble) (rest : List Event) :
    transfersFrom lv (ns.flatMap (writeNibble w) ++ rest) =
      ns.map (fun n => ⟨lv.rs, linesOf w (nibbleOnLines w n)⟩) ++
        transfersFrom (lv.applyAll (ns.flatMap (writeNibble w))) rest := by
  induction ns generalizing lv with
  | nil => rfl
  | cons n ns ih =>
    rw [List.flatMap_cons, List.append_assoc, transfersFrom_writeNibble h, ih (fits_applyAll h _),
      Levels.applyAll_append, applyAll_writeNibble h]
    rfl

/-- The transfers of the initialization: its nibbles, with RS low (R166). -/
def initTransfers (w : Width) : List Transfer :=
  (initNibbles w).map fun n => ⟨.low, linesOf w (nibbleOnLines w n)⟩

theorem map_latchWord_initTransfers (w : Width) :
    (initTransfers w).map Transfer.latchWord = (initLatchView w).map some := by
  cases w <;> rfl

/-- The initialization latches its nibbles, with RS low, whatever comes after (R166). -/
theorem transfersFrom_initEvents {w : Width} {lv : Levels} (h : lv.fits w = true) (rest : List Event) :
    transfersFrom lv (initEvents w ++ rest) = initTransfers w ++ transfersFrom (lv.applyAll (initEvents w)) rest := by
  have hset (lv : Levels) (p : Pin) (hp : p ≠ .e) (evs : List Event) :
      transfersFrom lv (.set p false :: evs) = transfersFrom (lv.drive p false) evs :=
    transfersFrom_append_of_no_rising (as := [.set p false]) (by simp) lv evs
  rw [initEvents_eq, List.cons_append, hset _ _ (by simp), List.append_assoc, transfersFrom_nibbles (fits_drive h _ _),
    List.singleton_append, hset _ _ (by simp), Levels.applyAll_cons, Levels.applyAll_append]
  rfl

end Sequence

section Moves

/-- Everything one move of the initialization does (R160, R165). -/
theorem initMoves_initAdvance {s : State} (hs : s.BetweenInitMoves) :
    InitMoves s (initAdvance s) (initAction s.width s.initStep) s.initStep.succ
      (if s.initStep.succ = .done then .ready else .initializing) where
  trace := initAdvance_trace s
  lv := initAdvance_lv s
  initStep := rfl
  phase := by rw [initAdvance_phase, hs.1]
  width := initAdvance_width s
  inFlight := initAdvance_inFlight s
  calls := initAdvance_calls s

/-- The step at an INIT_STEP is the move of its row of the table (R160). -/
theorem step_initMoves {s : State} (hs : s.BetweenInitMoves) {st : InitStep} (hst : s.initStep = st) :
    ∃ t, step s = .next t ∧
      InitMoves s t (initAction s.width st) st.succ (if st.succ = .done then .ready else .initializing) :=
  hst ▸ ⟨initAdvance s, step_of_initializing hs, initMoves_initAdvance hs⟩

/-- Everything that the moves that are left do (R165). -/
theorem initMoves_runInit {s : State} (hs : s.BetweenInitMoves) :
    InitMoves s (runInit s) ((initEvents s.width).drop (initOffset s.width s.initStep)) .done .ready := by
  rw [runInit_eq s hs.1]
  exact ⟨rfl, rfl, rfl, rfl, rfl, rfl, rfl⟩

theorem exec_init_of_between {s : State} (hs : s.BetweenInitMoves) : exec .init s = .next (runInit s) := by
  simp only [exec, execInit, (initGate_none_iff s).2 hs]

/-- A move that does not reach DONE leaves the block between moves (R165). -/
theorem betweenInitMoves_initAdvance {s : State} (hs : s.BetweenInitMoves) (h : s.initStep.succ ≠ .done) :
    (initAdvance s).BetweenInitMoves :=
  ⟨by rw [initAdvance_phase, if_neg h, hs.1], by rw [initAdvance_inFlight, hs.2]⟩

theorem initStep_iterate_initAdvance (k : Nat) (s : State) :
    (initAdvance^[k] s).initStep = InitStep.succ^[k] s.initStep := by
  induction k generalizing s with
  | zero => rfl
  | succ k ih => exact ih (initAdvance s)

/-- The first four moves from S0 leave the block between moves (R160). -/
theorem betweenInitMoves_iterate_initAdvance {s : State} (hs : s.BetweenInitMoves) (h0 : s.initStep = .s0) {k : Nat}
    (hk : k < 5) : (initAdvance^[k] s).BetweenInitMoves := by
  induction k with
  | zero => exact hs
  | succ k ih =>
    rw [Function.iterate_succ_apply']
    refine betweenInitMoves_initAdvance (ih (Nat.lt_of_succ_lt hk)) ?_
    rw [initStep_iterate_initAdvance, h0]
    have hk4 : k < 4 := Nat.lt_of_succ_lt_succ hk
    interval_cases k <;> decide

theorem steps_succ_of_next {s t : State} (h : step s = .next t) (n : Nat) : steps (n + 1) s = steps n t := by
  rw [steps, h]

/-- While each state is between moves, each step is one move (R160). -/
theorem steps_eq_iterate_initAdvance {n : Nat} {s : State} (h : ∀ k < n, (initAdvance^[k] s).BetweenInitMoves) :
    steps n s = .next (initAdvance^[n] s) := by
  induction n generalizing s with
  | zero => rfl
  | succ n ih =>
    have hfirst : s.BetweenInitMoves := h 0 (Nat.zero_lt_succ n)
    rw [steps_succ_of_next (step_of_initializing hfirst)]
    exact ih fun k hk => h (k + 1) (Nat.succ_lt_succ hk)

/-- From S0 five steps are the five moves (R160). -/
theorem steps_five_of_s0 {s : State} (hs : s.BetweenInitMoves) (h0 : s.initStep = .s0) :
    steps 5 s = .next (runInit s) :=
  steps_eq_iterate_initAdvance fun _ => betweenInitMoves_iterate_initAdvance hs h0

/-- Before the fifth step from S0, PHASE is INITIALIZING (R24). -/
theorem steps_initializing_of_s0 {s : State} (hs : s.BetweenInitMoves) (h0 : s.initStep = .s0) {k : Nat} (hk : k < 5) :
    ∃ t, steps k s = .next t ∧ t.phase = .initializing :=
  ⟨_, steps_eq_iterate_initAdvance fun _ hj => betweenInitMoves_iterate_initAdvance hs h0 (hj.trans hk),
    (betweenInitMoves_iterate_initAdvance hs h0 hk).1⟩

theorem betweenInitMoves_atConstruction (p : Params) : (State.atConstruction p).BetweenInitMoves := ⟨rfl, rfl⟩

/-- INIT from the start of construction: the whole event list, and the levels it leaves (R33, R166). -/
theorem initMoves_of_construct {p : Params} (hp : p.wellFormed = true) :
    ∃ t, exec .init (State.atConstruction p) = .next t ∧ t.trace = initEvents p.width ∧ t.phase = .ready ∧
      t.initStep = .done ∧ t.width = p.width ∧ t.lv = ⟨.low, .low, .low, linesOf p.width (initByte p.width)⟩ := by
  have hs := betweenInitMoves_atConstruction p
  have hmoves := initMoves_runInit hs
  have hfits : p.pinInit.fits p.width = true := (Bool.and_eq_true_iff.1 hp).1
  exact ⟨_, exec_init_of_between hs, hmoves.trace, hmoves.phase, hmoves.initStep, hmoves.width,
    hmoves.lv.trans (applyAll_initEvents hfits)⟩

end Moves

/-- Settles O1: `construct` reads `power_on_ready` alone. -/
theorem constructionSetsResetValues : Obligations.ConstructionSetsResetValues := fun p =>
  ⟨fun hready => ⟨State.atConstruction p, construct_eq_next.2 ⟨hready, rfl⟩, rfl, rfl, rfl, rfl, rfl, rfl⟩,
    construct_of_not_ready⟩

/-- Settles O2: the reset block is the construction with the default parameters, which give every pin the level U. -/
theorem resetLeavesEveryPinUndriven : Obligations.ResetLeavesEveryPinUndriven := by
  refine ⟨⟨Params.default, rfl, construct_default⟩, fun pin hpin => ?_⟩
  cases pin with
  | rs | rw | e => rfl
  | d k => exact (List.getElem?_replicate ..).trans (if_pos k.isLt)

/-- Settles O3: each step is `initAdvance`, which takes its action and its next INIT_STEP from the table. -/
theorem initializationFollowsItsTable : Obligations.InitializationFollowsItsTable := by
  intro s hs
  have hs3 (hst : s.initStep = .s3) (w : Width) (hw : s.width = w) :
      ∃ t, step s = .next t ∧ InitMoves s t (initAction w .s3) .s4 .initializing := hw ▸ step_initMoves hs hst
  exact ⟨step_initMoves hs, step_initMoves hs, step_initMoves hs, fun hst => hs3 hst .four, fun hst => hs3 hst .eight,
    step_initMoves hs⟩

/-- Settles O4: the move at S3, with its nibble written out. -/
theorem busWidthBranchReadsOnlyW : Obligations.BusWidthBranchReadsOnlyW := by
  intro s hs hst
  obtain ⟨t, hstep, hmoves⟩ := step_initMoves hs hst
  refine ⟨fun hw => ⟨t, hstep, ?_⟩, fun hw => ⟨t, hstep, ?_, ?_⟩⟩
  · rw [hmoves.trace, hw]
    rfl
  · rw [hmoves.trace, hw]
    exact List.append_nil _
  · rw [hmoves.lv, hw]
    rfl

/-- Settles O5: INIT from construction is the whole list, and its sleeps and levels are those of its nibbles. -/
theorem initEmitsItsWholeSequence : Obligations.InitEmitsItsWholeSequence := by
  intro p hp
  obtain ⟨t, hexec, htrace, hphase, hstep, hwidth, hlv⟩ := initMoves_of_construct hp
  have hready : p.powerOnReady = true := (Bool.and_eq_true_iff.1 hp).2
  refine ⟨State.atConstruction p, construct_eq_next.2 ⟨hready, rfl⟩, fun hw => ?_, fun hw => ?_⟩
  all_goals
    rw [hw] at htrace hwidth hlv
    exact ⟨t, hexec, htrace, hphase, hstep, hwidth, htrace ▸ rfl, hlv⟩

/-- Settles O6: INIT runs the moves that are left. -/
theorem initCompletesFromEveryStep : Obligations.InitCompletesFromEveryStep := fun s hs =>
  ⟨runInit s, exec_init_of_between hs, initMoves_runInit hs⟩

/-- Settles O7: five steps and INIT are both the five moves. -/
theorem fiveMovesAreInit : Obligations.FiveMovesAreInit := by
  intro p s h
  obtain ⟨-, rfl⟩ := construct_eq_next.1 h
  have hs := betweenInitMoves_atConstruction p
  exact ⟨(steps_five_of_s0 hs rfl).trans (exec_init_of_between hs).symm,
    fun k hk => steps_initializing_of_s0 hs rfl hk⟩

end Machine

end Sys2Proof
end

section
/-! The invariant of every run: what it says in each situation, that `locate` restores it wherever the trace stands, and
what it says of hazards, pins and the latch view. The statements about coherent states settled. -/

namespace Sys2Proof.Machine

section Shape

variable {s : State}

theorem traceShape_between_iff (hs : s.BetweenInitMoves) : TraceShape s ↔
    s.initStep ≠ .done ∧ s.trace = (initEvents s.width).take (initOffset s.width s.initStep) := by
  rw [TraceShape, hs.1, hs.2]

theorem traceShape_idle_iff (hs : s.Idle) : TraceShape s ↔ s.initStep = .done ∧ WholeOperations s s.trace := by
  rw [TraceShape, hs.1, hs.2]

theorem traceShape_initializing_iff {f : InFlight} (hphase : s.phase = .initializing) (hf : s.inFlight = some f) :
    TraceShape s ↔ f.op = .init ∧ f.index < (initEvents s.width).length ∧ s.initStep = initStepAt s.width f.index ∧
      s.trace = (initEvents s.width).take f.index := by
  rw [TraceShape, hphase, hf]

theorem traceShape_running_iff {f : InFlight} (hphase : s.phase = .ready) (hf : s.inFlight = some f) :
    TraceShape s ↔ s.initStep = .done ∧ f.op.hostCallable = true ∧ f.index < (eventsOf s.width f.op).length ∧
      ∃ tr, WholeOperations s tr ∧ s.trace = tr ++ (eventsOf s.width f.op).take f.index := by
  rw [TraceShape, hphase, hf]

/-- The whole initialization alone is followed by no operation. -/
theorem wholeOperations_initEvents (s : State) : WholeOperations s (initEvents s.width) :=
  ⟨[], by simp, (List.append_nil _).symm⟩

/-- One operation more. -/
theorem WholeOperations.append {tr : List Event} (h : WholeOperations s tr) {i : Instr} (hi : i.hostCallable = true) :
    WholeOperations s (tr ++ eventsOf s.width i) := by
  obtain ⟨ops, hops, rfl⟩ := h
  refine ⟨ops ++ [i], ?_, ?_⟩
  · simpa [or_imp, forall_and, hi] using hops
  · rw [List.flatMap_append, List.flatMap_singleton, List.append_assoc]

/-- With `k` events of the initialization emitted the trace has its shape at that position (R22, R165). -/
theorem traceShape_locate_init {k : Nat} (hphase : s.phase = .initializing) (hk : k ≤ (initEvents s.width).length)
    (htrace : s.trace = (initEvents s.width).take k) : TraceShape (s.locate .init k) := by
  obtain hlt | rfl := Nat.lt_or_eq_of_le hk
  · exact (traceShape_initializing_iff ((locate_init_phase_of_lt hlt).trans hphase) (locate_inFlight_of_lt hlt)).2
      ⟨rfl, hlt, rfl, htrace⟩
  · refine (traceShape_idle_iff ⟨locate_init_phase_of_le (Nat.le_refl _), locate_inFlight_of_le (Nat.le_refl _)⟩).2
      ⟨initStepAt_end s.width, ?_⟩
    rw [locate_trace, htrace, List.take_length]
    exact wholeOperations_initEvents s

/-- With `k` events of an operation emitted after whole operations the trace has its shape at that position (R22, R47). -/
theorem traceShape_locate_operation {i : Instr} (hi : i.hostCallable = true) {k : Nat} (hphase : s.phase = .ready)
    (hdone : s.initStep = .done) (hk : k ≤ (eventsOf s.width i).length) {tr : List Event} (htr : WholeOperations s tr)
    (htrace : s.trace = tr ++ (eventsOf s.width i).take k) : TraceShape (s.locate i k) := by
  have hphase' := (locate_phase_of_callable k s hi).trans hphase
  have hdone' := (locate_initStep_of_callable k s hi).trans hdone
  obtain hlt | rfl := Nat.lt_or_eq_of_le hk
  · exact (traceShape_running_iff hphase' (locate_inFlight_of_lt hlt)).2 ⟨hdone', hi, hlt, tr, htr, htrace⟩
  · refine (traceShape_idle_iff ⟨hphase', locate_inFlight_of_le (Nat.le_refl _)⟩).2 ⟨hdone', ?_⟩
    rw [locate_trace, htrace, List.take_length]
    exact htr.append hi

end Shape

section Running

/-- The events of the running operation from its position up to `k`. -/
def eventsUpTo (f : InFlight) (w : Width) (k : Nat) : List Event := ((eventsOf w f.op).take k).drop f.index

theorem take_append_eventsUpTo {f : InFlight} {w : Width} {k : Nat} (hk : f.index ≤ k) :
    (eventsOf w f.op).take f.index ++ eventsUpTo f w k = (eventsOf w f.op).take k := by
  have h := List.take_append_drop f.index ((eventsOf w f.op).take k)
  rwa [List.take_take, Nat.min_eq_left hk] at h

/-- The running operation up to its position `k`: a tick stops after one event, a step at the end (R22). -/
def advanceTo (f : InFlight) (k : Nat) (s : State) : State := (s.emitAll (eventsUpTo f s.width k)).locate f.op k

theorem finishRunning_eq_advanceTo {f : InFlight} {s : State} (hf : s.inFlight = some f) :
    finishRunning f s = advanceTo f (eventsOf s.width f.op).length s := by
  rw [finishRunning, advanceTo, eventsUpTo, List.take_length, remaining_of_running hf]

theorem tickEvent_eq_advanceTo {f : InFlight} {s : State} (hk : f.index < (eventsOf s.width f.op).length) :
    tickEvent f s = advanceTo f (f.index + 1) s := by
  have hone : eventsUpTo f s.width (f.index + 1) = [(eventsOf s.width f.op)[f.index]] := by
    rw [eventsUpTo, List.take_succ_eq_append_getElem hk, List.drop_left' (List.length_take_of_le hk.le)]
  rw [advanceTo, hone, tickEvent, List.getElem?_eq_getElem hk]
  rfl

/-- Wherever the running operation stops, at an event of it or at its end, the trace has its shape (R22, R187). -/
theorem traceShape_advanceTo {s : State} (h : TraceShape s) {f : InFlight} (hf : s.inFlight = some f) {k : Nat}
    (hk : f.index ≤ k) (hlen : k ≤ (eventsOf s.width f.op).length) : TraceShape (advanceTo f k s) := by
  cases hphase : s.phase with
  | initializing =>
    obtain ⟨hop, -, -, htrace⟩ := (traceShape_initializing_iff hphase hf).1 h
    have hall := take_append_eventsUpTo (w := s.width) hk
    rw [advanceTo]
    rw [hop] at hall hlen ⊢
    refine traceShape_locate_init (by simpa) (by simpa) ?_
    rw [emitAll_trace, htrace, emitAll_width]
    exact hall
  | ready =>
    obtain ⟨hdone, hc, -, tr, htr, htrace⟩ := (traceShape_running_iff hphase hf).1 h
    refine traceShape_locate_operation hc (by simpa) (by simpa) (by simpa) (tr := tr)
      (by simpa [WholeOperations] using htr) ?_
    rw [emitAll_trace, htrace, emitAll_width, List.append_assoc, take_append_eventsUpTo hk]

/-- A running operation of a coherent state has an event left (R22). -/
theorem index_lt_of_traceShape {s : State} (h : TraceShape s) {f : InFlight} (hf : s.inFlight = some f) :
    f.index < (eventsOf s.width f.op).length := by
  cases hphase : s.phase with
  | initializing =>
    obtain ⟨hop, hlt, -, -⟩ := (traceShape_initializing_iff hphase hf).1 h
    rwa [hop]
  | ready =>
    obtain ⟨-, -, hlt, -⟩ := (traceShape_running_iff hphase hf).1 h
    exact hlt

end Running

section Kept

/-- No step changes W (R23). -/
theorem step_width {s t : State} (h : step s = .next t) : t.width = s.width := by
  obtain ⟨f, -, rfl⟩ | ⟨-, rfl⟩ | ⟨-, i, rest, -, -, rfl⟩ := step_cases h
  · exact finishRunning_width f s
  · exact initAdvance_width s
  · exact emitAll_width _ _

/-- A move of the initialization takes the trace to the shape of the next INIT_STEP (R160, R165). -/
theorem traceShape_initAdvance {s : State} (h : TraceShape s) (hs : s.BetweenInitMoves) :
    TraceShape (initAdvance s) := by
  obtain ⟨-, htrace⟩ := (traceShape_between_iff hs).1 h
  have hnext : (initAdvance s).trace = (initEvents s.width).take (initOffset s.width s.initStep.succ) := by
    rw [initAdvance_trace, htrace, initEvents_take_succ]
  by_cases hdone : s.initStep.succ = .done
  · have hidle : (initAdvance s).Idle :=
      ⟨by rw [initAdvance_phase, if_pos hdone], by rw [initAdvance_inFlight, hs.2]⟩
    refine (traceShape_idle_iff hidle).2 ⟨hdone, ?_⟩
    rw [hnext, hdone, initOffset, List.take_length]
    exact ⟨[], by simp, by simp⟩
  · refine (traceShape_between_iff (betweenInitMoves_initAdvance hs hdone)).2 ⟨hdone, ?_⟩
    rw [hnext, initAdvance_width, initAdvance_initStep]

/-- Every step keeps the shape of the trace. -/
theorem traceShape_step {s t : State} (h : TraceShape s) (hstep : step s = .next t) : TraceShape t := by
  obtain ⟨f, hf, rfl⟩ | ⟨hs, rfl⟩ | ⟨hs, i, rest, -, hi, rfl⟩ := step_cases hstep
  · rw [finishRunning_eq_advanceTo hf]
    exact traceShape_advanceTo h hf (index_lt_of_traceShape h hf).le (Nat.le_refl _)
  · exact traceShape_initAdvance h hs
  · obtain ⟨hdone, htr⟩ := (traceShape_idle_iff hs).1 h
    have hidle : (({ s with calls := rest } : State).emitAll (eventsOf s.width i)).Idle :=
      ⟨(emitAll_phase _ _).trans hs.1, (emitAll_inFlight _ _).trans hs.2⟩
    refine (traceShape_idle_iff hidle).2 ⟨by simpa using hdone, ?_⟩
    simpa [WholeOperations] using htr.append hi

/-- Every tick keeps the shape of the trace. -/
theorem traceShape_tick {s t : State} (h : TraceShape s) (htick : tick s = .next t) : TraceShape t := by
  obtain ⟨f, hf, rfl⟩ | ⟨hs, rfl⟩ | ⟨hs, i, rest, -, hi, rfl⟩ := tick_cases htick
  · have hlt := index_lt_of_traceShape h hf
    rw [tickEvent_eq_advanceTo hlt]
    exact traceShape_advanceTo h hf (Nat.le_succ _) hlt
  · exact traceShape_locate_init hs.1 (initOffset_le _ _) ((traceShape_between_iff hs).1 h).2
  · obtain ⟨hdone, htr⟩ := (traceShape_idle_iff hs).1 h
    exact traceShape_locate_operation (s := { s with calls := rest }) hi hs.1 hdone (Nat.zero_le _) htr
      (List.append_nil _).symm

/-- A tick appends events to TRACE, changes LV by exactly those and keeps W (R23, R26, R27). -/
theorem tick_appends_events {s t : State} (h : tick s = .next t) :
    t.width = s.width ∧ ∃ evs, t.trace = s.trace ++ evs ∧ t.lv = s.lv.applyAll evs := by
  obtain ⟨f, -, rfl⟩ | ⟨-, rfl⟩ | ⟨-, i, rest, -, -, rfl⟩ := tick_cases h
  · unfold tickEvent
    split
    · next ev _ => exact ⟨rfl, [ev], rfl, rfl⟩
    · exact ⟨rfl, [], (List.append_nil _).symm, rfl⟩
  · exact ⟨rfl, [], (List.append_nil _).symm, rfl⟩
  · exact ⟨rfl, [], (List.append_nil _).symm, rfl⟩

/-- Events appended to TRACE and applied to LV keep what the invariant says of LV and W. -/
theorem Coherent.of_appends {p : Params} {s t : State} (h : Coherent p s) (hwidth : t.width = s.width)
    (hevs : ∃ evs, t.trace = s.trace ++ evs ∧ t.lv = s.lv.applyAll evs) (hshape : TraceShape t) : Coherent p t := by
  obtain ⟨evs, htrace, hlv⟩ := hevs
  exact ⟨h.powerOnReady, hwidth.trans h.width, by rw [hlv, h.lv, htrace, Levels.applyAll_append], hshape⟩

/-- Settles O54: what a step or a tick appends keeps LV with the trace, and `locate` or the next INIT_STEP says where the
trace then stands. -/
theorem coherenceIsKept : Obligations.CoherenceIsKept := by
  intro p s t h
  refine ⟨fun hstep => ?_, fun htick => ?_⟩
  · exact h.of_appends (step_width hstep) (step_appends_events hstep) (traceShape_step h.shape hstep)
  · obtain ⟨hwidth, hevs⟩ := tick_appends_events htick
    exact h.of_appends hwidth hevs (traceShape_tick h.shape htick)

/-- Settles O53: at S0 the trace is the initialization up to its first event, and LV is pin_init. -/
theorem coherentAtConstruction : Obligations.CoherentAtConstruction := by
  intro p s h
  obtain ⟨hready, rfl⟩ := construct_eq_next.1 h
  refine ⟨hready, rfl, rfl, (traceShape_between_iff (betweenInitMoves_atConstruction p)).2 ⟨?_, rfl⟩⟩
  rw [atConstruction_initStep]
  decide

end Kept

section Traces

/-- The trace with what is still to be emitted is a whole number of moves of the initialization, or the whole
initialization and whole operations (R47, R211). -/
theorem trace_append_remaining {s : State} (h : TraceShape s) :
    (∃ st, s.trace ++ s.remaining = (initEvents s.width).take (initOffset s.width st)) ∨
      WholeOperations s (s.trace ++ s.remaining) := by
  cases hf : s.inFlight with
  | none =>
    rw [show s.remaining = [] by simp [State.remaining, hf], List.append_nil]
    cases hphase : s.phase with
    | initializing => exact .inl ⟨s.initStep, ((traceShape_between_iff ⟨hphase, hf⟩).1 h).2⟩
    | ready => exact .inr ((traceShape_idle_iff ⟨hphase, hf⟩).1 h).2
  | some f =>
    rw [remaining_of_running hf]
    cases hphase : s.phase with
    | initializing =>
      obtain ⟨hop, -, -, htrace⟩ := (traceShape_initializing_iff hphase hf).1 h
      rw [hop, htrace]
      exact .inr ((List.take_append_drop ..).symm ▸ wholeOperations_initEvents s)
    | ready =>
      obtain ⟨-, hc, -, tr, htr, htrace⟩ := (traceShape_running_iff hphase hf).1 h
      rw [htrace, List.append_assoc, List.take_append_drop]
      exact .inr (htr.append hc)

theorem hazardFree_initEvents_take (w : Width) (st : InitStep) :
    hazardFree ((initEvents w).take (initOffset w st)) = true := by
  cases w <;> cases st <;> rfl

theorem hazardFree_wholeOperations {s : State} {tr : List Event} (h : WholeOperations s tr) : hazardFree tr = true := by
  obtain ⟨ops, hops, rfl⟩ := h
  have hinit : hazardFree (initEvents s.width) = true := by
    simpa [initOffset] using hazardFree_initEvents_take s.width .done
  exact hazardFree_append hinit (hazardFree_flatMap_eventsOf hops s.width)

/-- Settles O55: the trace with the rest of its operation is made of whole transfers and single events. -/
theorem coherentTracesAreHazardFree : Obligations.CoherentTracesAreHazardFree := by
  intro p s h
  obtain ⟨st, hinit⟩ | hwhole := trace_append_remaining h.shape
  · rw [hinit]
    exact hazardFree_initEvents_take s.width st
  · exact hazardFree_wholeOperations hwhole

/-- When READY and at rest, the trace is the whole initialization and then whole operations (R211). -/
theorem Coherent.wholeOperations {p : Params} {s : State} (h : Coherent p s) (hs : s.Idle) :
    WholeOperations s s.trace := ((traceShape_idle_iff hs).1 h.shape).2

theorem fits_allUndriven (w : Width) : (Levels.allUndriven w).fits w = true := by cases w <;> rfl

/-- The latch words of the initialization and whole operations, in order (R55, R166). -/
theorem map_latchWord_transfers {w : Width} {ops : List Instr} (hops : ∀ i ∈ ops, i.hostCallable = true) :
    (transfers w (initEvents w ++ ops.flatMap (eventsOf w))).map Transfer.latchWord =
      (initLatchView w ++ operationLatches w ops).map some := by
  have hfits := fits_allUndriven w
  rw [transfers, transfersFrom_initEvents hfits, transfersFrom_eventsOf (fits_applyAll hfits _) hops, List.map_append,
    List.map_append, map_latchWord_initTransfers, map_latchWord_operationTransfers]

/-- Settles O58: the initialization latches its nibbles, and the operations after it latch words that decode to them. -/
theorem coherentTraceDecodes : Obligations.CoherentTraceDecodes := by
  intro p s h hs
  obtain ⟨ops, hops, htrace⟩ := h.wholeOperations hs
  refine ⟨ops, operationLatches s.width ops, hops, htrace, ?_, decodeLatched_operationLatches s.width ops⟩
  rw [htrace]
  exact latchWords_of_map (map_latchWord_transfers hops)

/-- Whole operations do to the pins what their words do (R26). -/
theorem applyAll_flatMap_eventsOf {w : Width} (lv : Levels) {ops : List Instr}
    (hops : ∀ i ∈ ops, i.hostCallable = true) :
    lv.applyAll (ops.flatMap (eventsOf w)) = lv.applyAll (sendWords w (ops.flatMap (encode w))) := by
  induction ops generalizing lv with
  | nil => rfl
  | cons i ops ih =>
    rw [List.forall_mem_cons] at hops
    rw [List.flatMap_cons, List.flatMap_cons, sendWords_append, Levels.applyAll_append, Levels.applyAll_append,
      applyAll_eventsOf hops.1, ih _ hops.2]

/-- After the initialization and whole operations R/W and E are low, and RS and the lines carry a word (R33, R209). -/
theorem applyAll_wholeOperations {s : State} {tr : List Event} (htr : WholeOperations s tr) {lv : Levels}
    (h : lv.fits s.width = true) :
    ∃ x : BusWord, lv.applyAll tr = ⟨Level.ofBool x.rs, .low, .low, linesOf s.width x.byte⟩ := by
  obtain ⟨ops, hops, rfl⟩ := htr
  rw [Levels.applyAll_append, applyAll_flatMap_eventsOf _ hops]
  have hinit := applyAll_initEvents h
  cases hlast : (ops.flatMap (encode s.width)).getLast? with
  | none =>
    rw [List.getLast?_eq_none_iff.1 hlast, sendWords_nil, Levels.applyAll_nil, hinit]
    exact ⟨⟨false, initByte s.width⟩, rfl⟩
  | some x =>
    rw [applyAll_sendWords_of_getLast (fits_applyAll h _) hlast, hinit]
    exact ⟨x, rfl⟩

/-- A pin group whose RS and lines carry a word, with R/W and E low, has every pin driven (R209). -/
theorem get_of_word {w : Width} {x : BusWord} {pin : Pin} (hpin : pin.exists w = true) :
    ∃ v, Levels.get ⟨Level.ofBool x.rs, .low, .low, linesOf w x.byte⟩ pin = some (Level.ofBool v) := by
  cases pin with
  | rs => exact ⟨x.rs, rfl⟩
  | rw | e => exact ⟨false, rfl⟩
  | d k => exact ⟨x.byte.getLsbD k.val, getElem?_linesOf x.byte (of_decide_eq_true hpin)⟩

/-- Settles O56: the last word, or the initialization's last nibble, is what RS and the lines carry, and each transfer of
the trace has a latch word. -/
theorem coherentReadyPinsAreDriven : Obligations.CoherentReadyPinsAreDriven := by
  intro p s hp h hs
  have htr := h.wholeOperations hs
  have hfits : p.pinInit.fits s.width = true := h.width ▸ (Bool.and_eq_true_iff.1 hp).1
  obtain ⟨x, hlv⟩ := applyAll_wholeOperations htr hfits
  have hlvfits : s.lv.fits s.width = true := h.lv ▸ fits_applyAll hfits _
  rw [← h.lv] at hlv
  refine ⟨by rw [hlv], by rw [hlv], hlvfits, fun pin hpin => hlv ▸ get_of_word hpin, fun t ht => ?_⟩
  obtain ⟨ops, hops, htrace⟩ := htr
  rw [htrace] at ht
  have hmem := List.mem_map_of_mem (f := Transfer.latchWord) ht
  rw [map_latchWord_transfers hops] at hmem
  obtain ⟨y, -, hy⟩ := List.mem_map.1 hmem
  rw [← hy]
  rfl

/-- In a coherent state PHASE is READY exactly when the whole initialization has been emitted (R24). -/
theorem Coherent.ready_iff {p : Params} {s : State} (h : Coherent p s) :
    s.phase = .ready ↔ initEvents s.width <+: s.trace := by
  cases hphase : s.phase with
  | initializing =>
    obtain ⟨k, hk, htrace⟩ := trace_of_traceShape_initializing h.shape hphase
    refine ⟨nofun, fun hprefix => ?_⟩
    have hlen := hprefix.length_le
    rw [htrace, List.length_take_of_le hk.le] at hlen
    exact absurd hk (Nat.not_lt.2 hlen)
  | ready =>
    obtain ⟨evs, -, htrace⟩ := trace_of_traceShape_ready h.shape hphase
    exact ⟨fun _ => htrace ▸ List.prefix_append _ _, fun _ => rfl⟩

/-- No step leaves READY (R24). -/
theorem step_phase_of_ready {s t : State} (hready : s.phase = .ready) (h : step s = .next t) : t.phase = .ready := by
  obtain ⟨f, -, rfl⟩ | ⟨⟨hinit, -⟩, -⟩ | ⟨-, i, rest, -, -, rfl⟩ := step_cases h
  · by_cases hop : f.op = .init
    · exact (finishRunning_init f s hop).1
    · rw [finishRunning_phase_of_callable f s (hostCallable_of_ne_init hop), hready]
  · rw [hready] at hinit
    cases hinit
  · rw [emitAll_phase, hready]

/-- Settles O10: READY is where the trace holds the whole initialization, no step leaves it, and it is what lets an
operation run. -/
theorem phaseGatesEveryOperation : Obligations.PhaseGatesEveryOperation := by
  refine ⟨fun p s h => ?_, fun p s => Coherent.ready_iff, fun s t => step_phase_of_ready, fun i s hi hs => ?_,
    fun i s hi hs => ?_⟩
  · obtain ⟨-, rfl⟩ := construct_eq_next.1 h
    rfl
  · exact ⟨_, exec_of_idle (hostCallable_of_ne_init hi) hs⟩
  · rw [exec_eq_perform (hostCallable_of_ne_init hi), perform, operationGate_of_initializing hs]

end Traces

end Sys2Proof.Machine
end

section
/-! Operations and steps of the machine: the frame of each operation, the gates, and runs of steps and of ticks. The
remaining statements about `exec`, `step` and `tick` settled. -/

namespace Sys2Proof.Machine

section Frames

/-- A next state is determined by the events emitted, since nothing else changes (R138). -/
theorem emits_iff {s t : State} {evs : List Event} : Emits s t evs ↔ t = s.emitAll evs := by
  refine ⟨fun h => ?_, fun h => h ▸ emits_emitAll s evs⟩
  obtain ⟨htrace, hlv, hwidth, hphase, hstep, hflight, hcalls⟩ := h
  obtain ⟨w, ph, st, lv, tr, fl, cs⟩ := t
  rw [emitAll_eq]
  simp_all

/-- Only INIT and the taking of a call read the host's calls or PHASE, so every other step leaves them (R122, R187). -/
theorem step_calls_of_not_idle {s t : State} (hs : ¬ s.Idle) (h : step s = .next t) : t.calls = s.calls := by
  obtain ⟨f, -, rfl⟩ | ⟨-, rfl⟩ | ⟨hidle, -⟩ := step_cases h
  · exact finishRunning_calls f s
  · exact initAdvance_calls s
  · exact absurd hidle hs

@[simp] theorem tickEvent_calls (f : InFlight) (s : State) : (tickEvent f s).calls = s.calls := by
  unfold tickEvent
  split <;> rfl

theorem tick_calls_of_not_idle {s t : State} (hs : ¬ s.Idle) (h : tick s = .next t) : t.calls = s.calls := by
  obtain ⟨f, -, rfl⟩ | ⟨-, rfl⟩ | ⟨hidle, -⟩ := tick_cases h
  · exact tickEvent_calls f s
  · rfl
  · exact absurd hidle hs

/-- Settles O11: `perform` answers from an idle block alone, with the whole list emitted, and no other kind of step or tick
takes a call. -/
theorem operationsRunWholeExactlyWhenIdle : Obligations.OperationsRunWholeExactlyWhenIdle := by
  refine ⟨fun i s t hi => ?_, fun s t hs => ⟨step_calls_of_not_idle hs, tick_calls_of_not_idle hs⟩⟩
  rw [exec_eq_perform (hostCallable_of_ne_init hi), perform_next_iff, emits_iff]

/-- While an operation runs, no instruction has a move (R187). -/
theorem exec_of_running {s : State} {f : InFlight} (hf : s.inFlight = some f) (i : Instr) :
    exec i s = .refused .operationInFlight := by
  by_cases hi : i = .init
  · subst hi
    simp only [exec, execInit, initGate, hf]
  · rw [exec_eq_perform (hostCallable_of_ne_init hi), perform, operationGate_of_running hf]

/-- Settles O12: both gates refuse, and the step finishes the running operation. -/
theorem oneOperationAtATime : Obligations.OneOperationAtATime := fun s f hf =>
  ⟨exec_of_running hf, finishRunning f s, step_of_running hf, finishRunning_inFlight f s, finishRunning_calls f s,
    (finishRunning_trace f s).trans (congrArg _ (remaining_of_running hf))⟩

/-- An instruction that answers from PHASE = READY is an operation, run whole from an idle block (R167). -/
theorem exec_next_of_ready {i : Instr} {s t : State} (hready : s.phase = .ready) (h : exec i s = .next t) :
    s.Idle ∧ i.hostCallable = true ∧ t = s.emitAll (eventsOf s.width i) := by
  obtain hop | ⟨⟨hinit, -⟩, -, -⟩ := exec_cases h
  · exact hop
  · rw [hready] at hinit
    cases hinit

/-- Settles O9: from a READY block only an operation answers, and it changes neither PHASE nor INIT_STEP. -/
theorem noReinitialization : Obligations.NoReinitialization := by
  refine ⟨fun s => exec_init_of_idle, fun s t hs h => ?_, fun i s t hready h => ?_⟩
  · obtain ⟨f, hf, -⟩ | ⟨⟨hinit, -⟩, -⟩ | ⟨-, i, rest, -, -, rfl⟩ := step_cases h
    · rw [hs.2] at hf
      cases hf
    · rw [hs.1] at hinit
      cases hinit
    · exact ⟨(emitAll_phase _ _).trans hs.1, emitAll_initStep _ _⟩
  · obtain ⟨-, -, rfl⟩ := exec_next_of_ready hready h
    exact ⟨(emitAll_phase _ _).trans hready, emitAll_initStep _ _⟩

/-- Settles O43: both states emit the list of the instruction on their common W. -/
theorem eventsDependOnlyOnWAndOperands : Obligations.EventsDependOnlyOnWAndOperands := by
  intro i s s' t t' hwidth hready hready' h h'
  obtain ⟨-, -, rfl⟩ := exec_next_of_ready hready h
  obtain ⟨-, -, rfl⟩ := exec_next_of_ready hready' h'
  exact ⟨eventsOf s.width i, emitAll_trace _ _, hwidth ▸ emitAll_trace _ _⟩

/-- Settles O44, by everything a step and an instruction can do. -/
theorem widthNeverChanges : Obligations.WidthNeverChanges := by
  refine ⟨fun s t => step_width, fun i s t h => ?_⟩
  obtain ⟨-, -, rfl⟩ | ⟨hs, -, rfl⟩ := exec_cases h
  · exact emitAll_width _ _
  · exact (initMoves_runInit hs).width

end Frames

section Settle

theorem runInit_idle {s : State} (hs : s.BetweenInitMoves) : (runInit s).Idle ∧ (runInit s).calls = s.calls :=
  have h := initMoves_runInit hs
  ⟨⟨h.phase, h.inFlight.trans hs.2⟩, h.calls⟩

/-- With nothing running, settling leaves a block at rest with the same calls: it finishes the construction, if that is not
finished (R122, R211). -/
theorem settle_of_not_running {s : State} (hf : s.inFlight = none) :
    s.settle.Idle ∧ s.settle.calls = s.calls := by
  cases hphase : s.phase with
  | initializing =>
    have hsettle : s.settle = runInit s := by simp [State.settle, hf, hphase]
    exact hsettle ▸ runInit_idle ⟨hphase, hf⟩
  | ready =>
    have hsettle : s.settle = s := by simp [State.settle, hf, hphase]
    rw [hsettle]
    exact ⟨⟨hphase, hf⟩, rfl⟩

theorem settle_of_running {s : State} {f : InFlight} (hf : s.inFlight = some f) :
    s.settle = (finishRunning f s).settle := by
  simp [State.settle, hf]

/-- Settling leaves a block at rest with the same calls, from every state. -/
theorem settle_idle (s : State) : s.settle.Idle ∧ s.settle.calls = s.calls := by
  cases hf : s.inFlight with
  | none => exact settle_of_not_running hf
  | some f =>
    rw [settle_of_running hf, ← finishRunning_calls f s]
    exact settle_of_not_running (finishRunning_inFlight f s)

theorem settle_of_idle {s : State} (hs : s.Idle) : s.settle = s := by
  simp [State.settle, hs.1, hs.2]

/-- Settles O49: the decoded instruction stands at the head of the calls of a block at rest, and the step takes it. -/
theorem stepRunsTheDecodedWord : Obligations.StepRunsTheDecodedWord := by
  intro s nbits w i hdecode
  obtain ⟨hidle, hcalls⟩ := settle_idle s
  refine ⟨?_, hidle, hcalls, settle_of_idle⟩
  have hplaced : s.withFetchWord nbits w = { s.settle with calls := i :: s.settle.calls } := by
    simp only [State.withFetchWord, hdecode]
  rw [hplaced]
  exact step_of_call hidle rfl

/-- A block at rest with no pending call has ended its run (R205). -/
theorem step_of_no_call {s : State} (hs : s.Idle) (hcalls : s.calls = []) : step s = .refused .runEnded := by
  simp [step, hs.1, hs.2, hcalls]

/-- Settles O50: a block at rest takes the head of its calls, if there is one. -/
theorem stepRunsTheNextCall : Obligations.StepRunsTheNextCall := fun _ hs =>
  ⟨fun _ _ => step_of_call hs, step_of_no_call hs⟩

end Settle

section Runs

/-- From a block at rest one step runs the next call whole and takes it from the list (R122, R187). -/
theorem step_of_pending_call {s : State} (hs : s.Idle) {i : Instr} (hi : i.hostCallable = true) (rest : List Instr) :
    step { s with calls := i :: rest } = .next { s.emitAll (eventsOf s.width i) with calls := rest } := by
  have htaken : ({ s with calls := rest } : State).Idle := hs
  refine (step_of_call (s := { s with calls := i :: rest }) hs rfl).trans ((exec_of_idle hi htaken).trans ?_)
  rw [emitAll_eq, emitAll_eq]

theorem idle_emitAll {s : State} (hs : s.Idle) (evs : List Event) : (s.emitAll evs).Idle :=
  ⟨(emitAll_phase s evs).trans hs.1, (emitAll_inFlight s evs).trans hs.2⟩

/-- From a block at rest all pending calls run, in order, one step for each (R53, R187). -/
theorem steps_of_pending_calls {s : State} (hs : s.Idle) {ops : List Instr} (hops : ∀ i ∈ ops, i.hostCallable = true) :
    steps ops.length { s with calls := ops } =
      .next { s.emitAll (ops.flatMap (eventsOf s.width)) with calls := [] } := by
  induction ops generalizing s with
  | nil => rfl
  | cons i ops ih =>
    rw [List.forall_mem_cons] at hops
    rw [List.length_cons, steps_succ_of_next (step_of_pending_call hs hops.1 ops),
      ih (idle_emitAll hs _) hops.2, List.flatMap_cons, emitAll_append, emitAll_width]

theorem steps_add {m n : Nat} {s t : State} (h : steps m s = .next t) : steps (m + n) s = steps n t := by
  induction m generalizing s with
  | zero =>
    cases h
    rw [Nat.zero_add]
  | succ m ih =>
    rw [steps] at h
    rw [Nat.add_right_comm, steps]
    cases hstep : step s with
    | next u =>
      rw [hstep] at h
      exact ih h
    | fault r | refused r =>
      rw [hstep] at h
      cases h

/-- From a block at rest all its pending calls run, in order, one step for each, and nothing else is emitted (R53, R187). -/
theorem steps_of_calls {s : State} (hs : s.Idle) (hcalls : ∀ i ∈ s.calls, i.hostCallable = true) :
    ∃ t, steps s.calls.length s = .next t ∧ t.Idle ∧ t.calls = [] ∧
      t.trace = s.trace ++ s.calls.flatMap (eventsOf s.width) ∧
      t.lv = s.lv.applyAll (s.calls.flatMap (eventsOf s.width)) :=
  ⟨_, steps_of_pending_calls hs hcalls, idle_emitAll hs _, rfl, emitAll_trace _ _, emitAll_lv _ _⟩

/-- Settles O60: five steps are the initialization, and then each call is one step. -/
theorem hostCallsAllRunInOrder : Obligations.HostCallsAllRunInOrder := by
  intro p s ops h hops
  obtain ⟨-, rfl⟩ := construct_eq_next.1 h
  have hs : ({ State.atConstruction p with calls := ops } : State).BetweenInitMoves := ⟨rfl, rfl⟩
  have hinit := initMoves_runInit hs
  have hfive := steps_five_of_s0 hs rfl
  obtain ⟨hidle, hcalls⟩ := runInit_idle hs
  generalize runInit { State.atConstruction p with calls := ops } = u at hinit hfive hidle hcalls
  have hwidth : u.width = p.width := hinit.width
  obtain ⟨t, hsteps, htidle, htcalls, htrace, hlv⟩ := steps_of_calls hidle (hcalls ▸ hops)
  rw [hcalls, hwidth] at htrace hlv
  rw [hcalls] at hsteps
  rw [hinit.trace] at htrace
  rw [hinit.lv] at hlv
  refine ⟨t, (steps_add hfive).trans hsteps, htidle, htcalls, htrace, ?_, step_of_no_call htidle htcalls⟩
  rw [hlv, htrace, ← Levels.applyAll_append]
  rfl

/-- Settles O40: an operation emits what its expansion emits, and each row of the expansion is one step. -/
theorem compositesActAsTheirExpansion : Obligations.CompositesActAsTheirExpansion := by
  refine ⟨fun i s hi hs => ?_, fun _ => rfl, fun _ _ => rfl, fun _ _ => rfl, fun _ _ _ => rfl, rfl, rfl⟩
  have hexpand : ∀ j ∈ i.expand, j.hostCallable = true := fun j hj => by
    obtain ⟨x, hx⟩ := expand_hasWord hj s.width
    exact hostCallable_of_encodeWord hx
  exact ⟨_, exec_of_idle hi hs, eventsOf_expand hi ▸ steps_of_pending_calls hs hexpand⟩

end Runs

section Ticks

/-- A tick of the running operation emits the event at its position and moves on (R22). -/
theorem tick_of_running {s : State} {f : InFlight} {ev : Event} (hf : s.inFlight = some f)
    (hev : (eventsOf s.width f.op)[f.index]? = some ev) :
    tick s = .next ((s.emit ev).locate f.op (f.index + 1)) := by
  simp only [tick, hf, tickEvent, hev]

/-- Settles O52: a tick of a running operation emits the event at its position, and no other tick emits one. -/
theorem tickEmitsTheNextEvent : Obligations.TickEmitsTheNextEvent := by
  refine ⟨fun s f ev hf hev => ⟨_, tick_of_running hf hev, rfl, rfl, rfl, rfl⟩, fun s t hf h => ?_⟩
  obtain ⟨f, hf', -⟩ | ⟨-, rfl⟩ | ⟨-, i, rest, -, -, rfl⟩ := tick_cases h
  · rw [hf] at hf'
    cases hf'
  · exact ⟨rfl, rfl⟩
  · exact ⟨rfl, rfl⟩

/-- Before the end of an operation the position leaves no trace: the next `locate` overwrites all of it (R22). -/
theorem locate_emit_locate {s : State} {op : Instr} {k : Nat} (hk : k < (eventsOf s.width op).length) (ev : Event)
    (n : Nat) : ((s.locate op k).emit ev).locate op n = (s.emit ev).locate op n := by
  by_cases hop : op = .init
  · subst hop
    simp only [State.locate, State.emit, true_and, if_true, if_neg (Nat.not_le.2 hk)]
    rfl
  · simp only [State.locate, State.emit, hop, false_and, if_false]
    rfl

theorem ticks_succ_of_next {s t : State} (h : tick s = .next t) (n : Nat) : ticks (n + 1) s = ticks n t := by
  rw [ticks, h]

/-- From a position of an operation, one tick for each event that is left emits them and ends the operation (R22, R47). -/
theorem ticks_locate {s : State} {op : Instr} {k : Nat} (hk : k ≤ (eventsOf s.width op).length) :
    ticks ((eventsOf s.width op).length - k) (s.locate op k) =
      .next ((s.emitAll ((eventsOf s.width op).drop k)).locate op (eventsOf s.width op).length) := by
  induction hn : (eventsOf s.width op).length - k generalizing s k with
  | zero =>
    have hend : k = (eventsOf s.width op).length := by omega
    subst hend
    rw [List.drop_length, emitAll_nil, ticks]
  | succ n ih =>
    have hlt : k < (eventsOf s.width op).length := by omega
    have hev := List.getElem?_eq_getElem hlt
    rw [ticks_succ_of_next (tick_of_running (locate_inFlight_of_lt hlt) hev), locate_emit_locate hlt]
    have hrest := ih (s := s.emit (eventsOf s.width op)[k]) (k := k + 1) hlt (by rw [emit_width]; omega)
    rw [hrest, emit_width, List.drop_eq_getElem_cons hlt, emitAll_cons]

/-- From a running operation's position, one tick for each event that is left is the step (R187). -/
theorem ticks_of_running {s : State} {f : InFlight} (hf : s.inFlight = some f)
    (hlt : f.index < (eventsOf s.width f.op).length) :
    ticks ((eventsOf s.width f.op).length - f.index) s = step s := by
  have hticks := ticks_locate (s := s.emit (eventsOf s.width f.op)[f.index]) (op := f.op) (k := f.index + 1) hlt
  rw [emit_width, ← emitAll_cons, ← List.drop_eq_getElem_cons hlt] at hticks
  have htick := tick_of_running hf (List.getElem?_eq_getElem hlt)
  rw [← Nat.sub_add_cancel (Nat.sub_pos_of_lt hlt), ← Nat.sub_add_eq, ticks_succ_of_next htick, hticks,
    step_of_running hf, finishRunning, remaining_of_running hf]

/-- At its end an operation leaves no position (R22). -/
theorem locate_end {s : State} (hf : s.inFlight = none) {i : Instr} (hi : i.hostCallable = true) :
    s.locate i (eventsOf s.width i).length = s := by
  have hne : i ≠ .init := fun h => by subst h; cases hi
  simp only [State.locate, Nat.lt_irrefl, if_false, hne, false_and, ← hf]

/-- INIT ends with its last event: DONE and READY (R165). -/
theorem locate_init_end {s : State} (hs : s.BetweenInitMoves) :
    (s.emitAll ((initEvents s.width).drop (initOffset s.width s.initStep))).locate .init (initEvents s.width).length =
      runInit s := by
  rw [runInit_eq s hs.1, emitAll_eq]
  simp only [State.locate, eventsOf, Nat.lt_irrefl, Nat.le_refl, and_self, if_true, if_false, initStepAt_end, ← hs.2]

/-- From the invocation of an operation on a block at rest, one tick for each event is the operation run whole (R47). -/
theorem ticks_of_invoked {s : State} (hs : s.Idle) {i : Instr} (hi : i.hostCallable = true) :
    ticks (eventsOf s.width i).length (s.locate i 0) = exec i s := by
  have hend := locate_end (idle_emitAll hs (eventsOf s.width i)).2 hi
  rw [emitAll_width] at hend
  rw [exec_of_idle hi hs, ← hend]
  exact ticks_locate (Nat.zero_le _)

/-- From a block at rest, one tick for the invocation and one for each event are the step of the next call (R47). -/
theorem ticks_of_call {s : State} {i : Instr} {rest : List Instr} (hs : s.Idle) (hcalls : s.calls = i :: rest)
    (hi : i.hostCallable = true) : ticks ((eventsOf s.width i).length + 1) s = step s := by
  have htick : tick s = .next (({ s with calls := rest } : State).locate i 0) := by
    simp only [tick, hs.1, hs.2, hcalls]
    exact invoke_next_iff.2 ⟨hi, rfl⟩
  rw [ticks_succ_of_next htick, step_of_call hs hcalls]
  exact ticks_of_invoked (s := { s with calls := rest }) hs hi

/-- From an INIT_STEP, one tick to take the initialization up and one for each event that is left are INIT (R165). -/
theorem ticks_of_between {s : State} (hs : s.BetweenInitMoves) :
    ticks ((initEvents s.width).length - initOffset s.width s.initStep + 1) s = exec .init s := by
  have htick : tick s = .next (s.locate .init (initOffset s.width s.initStep)) := by
    simp only [tick, hs.1, hs.2]
  rw [ticks_succ_of_next htick, exec_init_of_between hs, ← locate_init_end hs]
  exact ticks_locate (op := .init) (initOffset_le _ _)

/-- Settles O51: the invocation, the taking up of the initialization and a running operation each stand at a position, from
which one tick for each event that is left ends the operation. -/
theorem ticksComposeToOperations : Obligations.TicksComposeToOperations :=
  ⟨fun _ _ _ => ticks_of_call, fun _ _ => ticks_of_running, fun _ => ticks_of_between⟩

end Ticks

end Sys2Proof.Machine
end

section
/-! The bytes of GLYPH and CURSOR, and the remaining statements about what each operation sends settled. -/

namespace Sys2Proof

section AddressBytes

/-- GLYPH's byte: only `id mod 8` reaches it, since the mask keeps 6 bits of `id * 8` (R134, D25). -/
theorem encCgram_glyphAddress (id : Byte) :
    encCgram (glyphAddress id) = BitVec.ofNat 8 (0x40 + id.toNat % 8 * 8) := by
  have hmask : (id * 8 &&& 0x3F).toNat = id.toNat % 8 * 8 := by
    have hmod : (id * 8).toNat % 2 ^ 6 = id.toNat % 8 * 8 := by
      have hmul : (id * 8).toNat = id.toNat * 8 % 256 := BitVec.toNat_mul id 8
      omega
    rw [BitVec.toNat_and, ← hmod]
    exact Nat.and_two_pow_sub_one_eq_mod _ 6
  have hadd : 0x40 ||| id.toNat % 8 * 8 = 0x40 + id.toNat % 8 * 8 :=
    (Nat.two_pow_add_eq_or_of_lt (i := 6) (by omega) 1).symm
  apply BitVec.eq_of_toNat_eq
  rw [encCgram, glyphAddress, BitVec.toNat_or, hmask, BitVec.toNat_ofNat]
  exact hadd.trans (Nat.mod_eq_of_lt (by omega)).symm

/-- CURSOR's address as a number (R51, R135). -/
theorem cursorAddress_eq (row col : Byte) :
    cursorAddress row col = BitVec.ofNat 8 (col.toNat + row.toNat * 0x40) := by
  apply BitVec.eq_of_toNat_eq
  simp [cursorAddress, BitVec.toNat_add, BitVec.toNat_mul]

/-- The low 7 bits of CURSOR's address as a number (R51). -/
theorem toNat_cursorAddress_and_low7 (row col : Byte) :
    (cursorAddress row col &&& 0x7F).toNat = (col.toNat + row.toNat * 0x40) % 0x80 := by
  rw [BitVec.toNat_and, cursorAddress_eq, BitVec.toNat_ofNat]
  exact (Nat.and_two_pow_sub_one_eq_mod _ 7).trans (Nat.mod_mod_of_dvd _ (by decide))

/-- Two rows further the address differs in bit 7 alone, which DDRAM absorbs (R51, R89). -/
theorem encDdram_cursorAddress_add_two (row col : Byte) :
    encDdram (cursorAddress (row + 2) col) = encDdram (cursorAddress row col) := by
  have hlow : cursorAddress (row + 2) col &&& 0x7F = cursorAddress row col &&& 0x7F := by
    apply BitVec.eq_of_toNat_eq
    have hrow : (row + 2).toNat = (row.toNat + 2) % 256 := BitVec.toNat_add row 2
    rw [toNat_cursorAddress_and_low7, toNat_cursorAddress_and_low7, hrow]
    omega
  rw [← encDdram_and_low7, hlow, encDdram_and_low7]

end AddressBytes

namespace Machine

/-- An idle block answers an operation with exactly its event list (R122). -/
theorem exec_emits_eventsOf {s : State} {i : Instr} (hs : s.Idle) (hi : i.hostCallable = true) :
    ∃ t, exec i s = .next t ∧ Emits s t (eventsOf s.width i) :=
  ⟨_, exec_of_idle hi hs, emits_emitAll s _⟩

/-- Two operations with the same events are answered alike (R10). -/
theorem exec_eq_of_eventsOf_eq {s : State} {i j : Instr} (hi : i.hostCallable = true) (hj : j.hostCallable = true)
    (h : eventsOf s.width i = eventsOf s.width j) : exec i s = exec j s := by
  rw [exec_eq_perform hi, exec_eq_perform hj, h]

/-- Settles O30: each sends one byte and then sleeps its extra time. -/
theorem slowCommandsComplete : Obligations.SlowCommandsComplete := fun _ hs =>
  ⟨exec_emits_eventsOf hs rfl, exec_emits_eventsOf hs rfl⟩

/-- Settles O32: each shift has a word and no extra sleep. -/
theorem shiftsComplete : Obligations.ShiftsComplete := fun _ hs =>
  ⟨exec_emits_cmdSend hs rfl rfl, exec_emits_cmdSend hs rfl rfl, exec_emits_cmdSend hs rfl rfl,
    exec_emits_cmdSend hs rfl rfl⟩

/-- Settles O33: the row has a word and no extra sleep, and each field of its byte stands at its bits. -/
theorem functionTakesBusWidthFromW : Obligations.FunctionTakesBusWidthFromW := by
  intro s lines grid hs
  refine ⟨exec_emits_cmdSend hs rfl rfl, ?_⟩
  generalize s.width = w
  cases w <;> cases lines <;> cases grid <;> decide

/-- Settles O36: WRITE_SEQ is WRITE for each byte, and no byte is no event. -/
theorem writeSequenceCompletes : Obligations.WriteSequenceCompletes := fun _ hs =>
  ⟨fun _ => exec_emits_eventsOf hs rfl, exec_of_idle rfl hs⟩

/-- Settles O37: GLYPH is SET_CGRAM of its address and then WRITE for each row. -/
theorem glyphCompletes : Obligations.GlyphCompletes := fun _ id _ hs =>
  encCgram_glyphAddress id ▸ exec_emits_eventsOf hs rfl

/-- Settles O38: CURSOR is SET_DDRAM of its address, and two rows further the byte is the same. -/
theorem cursorCompletes : Obligations.CursorCompletes := by
  intro s row col hs
  refine ⟨cursorAddress_eq row col ▸ exec_emits_eventsOf hs rfl, exec_eq_of_eventsOf_eq rfl rfl ?_⟩
  exact congrArg (cmdSend s.width) (encDdram_cursorAddress_add_two row col)

/-- Settles O39: WRITE_AT is CURSOR and then WRITE for each byte. -/
theorem writeAtCompletes : Obligations.WriteAtCompletes := fun _ row col hs =>
  ⟨fun _ => cursorAddress_eq row col ▸ exec_emits_eventsOf hs rfl,
    exec_eq_of_eventsOf_eq rfl rfl (List.append_nil _)⟩

end Machine

/-- The eight SETs of a nibble on the 8-line bus: zeros below, the nibble above (R103). -/
theorem driveEight_shifted (n : Nibble) : driveEight (n.setWidth 8 <<< 4) =
    [.set (.d 0) false, .set (.d 1) false, .set (.d 2) false, .set (.d 3) false,
      .set (.d 4) (n.getLsbD 0), .set (.d 5) (n.getLsbD 1), .set (.d 6) (n.getLsbD 2), .set (.d 7) (n.getLsbD 3)] := by
  simp [driveEight]

/-- Settles O28: the definitions with their lines and sleeps written out; on W = 8 a nibble is shifted above four zeros. -/
theorem transfersWrittenOut : Obligations.TransfersWrittenOut := by
  refine ⟨fun _ => rfl, fun n => ?_, fun _ => rfl, fun _ _ => ⟨rfl, rfl⟩⟩
  rw [writeNibble, t8WriteNibble, driveEight_shifted]
  rfl

end Sys2Proof
end
